-- ==== Sys2Proof/Word.lean ====
section
/-!
DEFINITION. The bit vectors of the CORE (spec 00_scope.md R10, R11, R16): nibble fields, 8-bit register values
and RAM bytes, the 16-bit `I`, `pc`, stack slots and instruction words, and 12-bit addresses. Every value is
unsigned (R11).
-/

namespace Sys2Proof

/-- A 4-bit field of an instruction word (R18). -/
abbrev Nibble := BitVec 4

/-- An 8-bit register value, RAM byte or byte immediate KK (R16, R90). -/
abbrev Byte := BitVec 8

/-- The address immediate NNN, and the address of the host RAM port (R90, R36). -/
abbrev Addr12 := BitVec 12

/-- `I`, `pc`, a stack slot or an instruction word (R16, R90). -/
abbrev Word := BitVec 16

/-- `zext_16(v)` (R11, R92): no immediate is sign-extended. -/
abbrev zext16 (v : BitVec n) : Word := v.setWidth 16

end Sys2Proof
end

