-- ==== Sys2Proof/Config.lean ====
section
/-!
DEFINITION. The configuration parameters of spec 00_scope.md R9, their defaults, the default font bytes
(10_state.md R33), the fixed sizes the model uses (R8), and the one free value, the random byte (R14).
-/

namespace Sys2Proof

/-- QUIRK_SHIFT_SOURCE (R9, 92_eei_decisions.md D18): the source register of 8XY6 and 8XYE. -/
inductive ShiftSource where
  | vx
  | vy
deriving DecidableEq, Repr

/-- SYS_POLICY (R9, D8): what a family-0 word other than 00E0 and 00EE does. -/
inductive SysPolicy where
  | decodeError
  | nop
deriving DecidableEq, Repr

/-- FONT_ADDR_MODE (R9, D14): which digit FX29 takes from VX. -/
inductive FontAddrMode where
  | lowNibble
  | fullByte
deriving DecidableEq, Repr

/-- KEY_INDEX_MODE (R9, D15): what EX9E and EXA1 do with a key index above 15. -/
inductive KeyIndexMode where
  | fault
  | lowNibble
deriving DecidableEq, Repr

/-- FONT_TABLE (R9, R33): 16 glyphs of 5 bytes. -/
abbrev FontTable := Vector (Vector Byte 5) 16

/-- The configuration straps (R9, R31): fixed inputs, sampled at reset (R300), that no instruction reads
or writes as data. -/
structure Config where
  shiftSource   : ShiftSource
  loadStoreIncI : Bool
  sysPolicy     : SysPolicy
  fontAddrMode  : FontAddrMode
  keyIndexMode  : KeyIndexMode
  fontTable     : FontTable
deriving DecidableEq, Repr

/-- MEM_SIZE (R8). -/
def Config.memSize : Nat := 4096

/-- PROG_BASE (R8): where a program is loaded and where `pc` starts. -/
def Config.progBase : Word := 0x200

/-- ROM_MAX (R8): 4096 - 0x200. -/
def Config.romMax : Nat := 3584

/-- FONT_BASE (R8). -/
def Config.fontBase : Nat := 0x000

/-- FONT_SIZE (R8). -/
def Config.fontSize : Nat := 80

/-- The default FONT_TABLE of R33, row by row. PRESUMED (by the spec: general knowledge, not in source; log 9). -/
def Config.defaultFont : FontTable := #v[
  #v[0xF0, 0x90, 0x90, 0x90, 0xF0],
  #v[0x20, 0x60, 0x20, 0x20, 0x70],
  #v[0xF0, 0x10, 0xF0, 0x80, 0xF0],
  #v[0xF0, 0x10, 0xF0, 0x10, 0xF0],
  #v[0x90, 0x90, 0xF0, 0x10, 0x10],
  #v[0xF0, 0x80, 0xF0, 0x10, 0xF0],
  #v[0xF0, 0x80, 0xF0, 0x90, 0xF0],
  #v[0xF0, 0x10, 0x20, 0x40, 0x40],
  #v[0xF0, 0x90, 0xF0, 0x90, 0xF0],
  #v[0xF0, 0x90, 0xF0, 0x10, 0xF0],
  #v[0xF0, 0x90, 0xF0, 0x90, 0x90],
  #v[0xE0, 0x90, 0xE0, 0x90, 0xE0],
  #v[0xF0, 0x80, 0x80, 0x80, 0xF0],
  #v[0xE0, 0x90, 0x90, 0x90, 0xE0],
  #v[0xF0, 0x80, 0xF0, 0x80, 0xF0],
  #v[0xF0, 0x80, 0xF0, 0x80, 0x80]]

/-- The defaults of R9. DESIGN CHOICE of the spec (92_eei_decisions.md D8, D14, D15, D18, D19, D25; log 2). -/
def Config.default : Config where
  shiftSource   := .vx
  loadStoreIncI := false
  sysPolicy     := .decodeError
  fontAddrMode  := .lowNibble
  keyIndexMode  := .fault
  fontTable     := Config.defaultFont

/-- Byte `a` of a font table: glyph `a / 5`, row `a % 5` (R33: glyph d occupies 5 consecutive bytes
starting at 5*d). -/
def Config.fontByte (t : FontTable) (a : Nat) : Byte :=
  ((t[a / 5]?).bind (fun glyph => glyph[a % 5]?)).getD 0

/-- `draw()` (R14): the byte CXKK takes on its `n`-th execution. A FREE VALUE: no body, so that nothing in Lean
knows a value of it or a law relating two of them (93_implementation_defined.md I1; log 3). -/
opaque Config.rngDraw : Nat → Byte

end Sys2Proof
end

