-- ==== Sys2Proof/Syntax.lean ====
section
/-!
DEFINITION. The instruction set as syntax: one constructor per row of spec 30_encoding.md R95
(opcode_table.json), with the operand fields of its format (R91). Register fields X and Y and the row count N are
nibbles, KK a byte and NNN a 12-bit address (R90); every value of a field is legal (R93).
-/

namespace Sys2Proof

/-- The 35 instructions of R95. -/
inductive Instr where
  /-- 00E0 CLS (R141). -/
  | cls
  /-- 00EE RET (R142). -/
  | ret
  /-- 0NNN SYS NNN, NNN neither 0E0 nor 0EE (R140, R103). -/
  | sys (nnn : Addr12)
  /-- 1NNN JP NNN (R143). -/
  | jp (nnn : Addr12)
  /-- 2NNN CALL NNN (R144). -/
  | call (nnn : Addr12)
  /-- 3XKK SE Vx, KK (R161). -/
  | seImm (x : Nibble) (kk : Byte)
  /-- 4XKK SNE Vx, KK (R162). -/
  | sneImm (x : Nibble) (kk : Byte)
  /-- 5XY0 SE Vx, Vy (R163). -/
  | seReg (x y : Nibble)
  /-- 6XKK LD Vx, KK (R181). -/
  | ldImm (x : Nibble) (kk : Byte)
  /-- 7XKK ADD Vx, KK (R182). -/
  | addImm (x : Nibble) (kk : Byte)
  /-- 8XY0 LD Vx, Vy (R183). -/
  | ldReg (x y : Nibble)
  /-- 8XY1 OR Vx, Vy (R184). -/
  | orReg (x y : Nibble)
  /-- 8XY2 AND Vx, Vy (R185). -/
  | andReg (x y : Nibble)
  /-- 8XY3 XOR Vx, Vy (R186). -/
  | xorReg (x y : Nibble)
  /-- 8XY4 ADD Vx, Vy (R187). -/
  | addReg (x y : Nibble)
  /-- 8XY5 SUB Vx, Vy (R188). -/
  | subReg (x y : Nibble)
  /-- 8XY6 SHR Vx, Vy (R189). -/
  | shrReg (x y : Nibble)
  /-- 8XY7 SUBN Vx, Vy (R190). -/
  | subnReg (x y : Nibble)
  /-- 8XYE SHL Vx, Vy (R191). -/
  | shlReg (x y : Nibble)
  /-- 9XY0 SNE Vx, Vy (R164). -/
  | sneReg (x y : Nibble)
  /-- ANNN LD I, NNN (R210). -/
  | ldI (nnn : Addr12)
  /-- BNNN JP V0, NNN (R145). -/
  | jpV0 (nnn : Addr12)
  /-- CXKK RND Vx, KK (R192). -/
  | rnd (x : Nibble) (kk : Byte)
  /-- DXYN DRW Vx, Vy, N (R230). -/
  | drw (x y n : Nibble)
  /-- EX9E SKP Vx (R165). -/
  | skp (x : Nibble)
  /-- EXA1 SKNP Vx (R166). -/
  | sknp (x : Nibble)
  /-- FX07 LD Vx, DT (R250). -/
  | ldVxDt (x : Nibble)
  /-- FX0A LD Vx, K (R253). -/
  | ldVxK (x : Nibble)
  /-- FX15 LD DT, Vx (R251). -/
  | ldDtVx (x : Nibble)
  /-- FX18 LD ST, Vx (R252). -/
  | ldStVx (x : Nibble)
  /-- FX1E ADD I, Vx (R211). -/
  | addIVx (x : Nibble)
  /-- FX29 LD F, Vx (R212). -/
  | ldFVx (x : Nibble)
  /-- FX33 LD B, Vx (R213). -/
  | ldBVx (x : Nibble)
  /-- FX55 LD [I], Vx (R214). -/
  | ldMemVx (x : Nibble)
  /-- FX65 LD Vx, [I] (R215). -/
  | ldVxMem (x : Nibble)
deriving DecidableEq, Repr

end Sys2Proof
end

