-- ==== Sys2Proof/WellFormed.lean ====
section
/-!
DEFINITION. Which terms of `Instr` stand for an instruction. The field widths are in the types (R90, R93), so one
check is left: 0NNN with NNN = 0E0 or 0EE is not SYS but CLS or RET (30_encoding.md R103).
-/

namespace Sys2Proof

/-- The well-formed instructions: every field value is legal (R93, R97), but for the two NNN that R103 gives
to CLS and RET. -/
def Instr.wellFormed : Instr → Bool
  | .sys nnn => nnn != 0x0E0 && nnn != 0x0EE
  | .cls | .ret | .jp _ | .call _ | .seImm _ _ | .sneImm _ _ | .seReg _ _ | .ldImm _ _ | .addImm _ _
  | .ldReg _ _ | .orReg _ _ | .andReg _ _ | .xorReg _ _ | .addReg _ _ | .subReg _ _ | .shrReg _ _
  | .subnReg _ _ | .shlReg _ _ | .sneReg _ _ | .ldI _ | .jpV0 _ | .rnd _ _ | .drw _ _ _ | .skp _ | .sknp _
  | .ldVxDt _ | .ldVxK _ | .ldDtVx _ | .ldStVx _ | .addIVx _ | .ldFVx _ | .ldBVx _ | .ldMemVx _
  | .ldVxMem _ => true

end Sys2Proof
end

