-- ==== Sys2Proof/Decode.lean ====
section
/-!
DEFINITION. The decoder (spec 30_encoding.md R90, R94, R95, R96, R103; 40_fetch_decode_dispatch.md R123), total on
every word, and the encoder written from the same opcode map. The decoder reads the word alone: SYS_POLICY is
applied by the meaning of SYS, which raises DecodeError (log 4).
-/

namespace Sys2Proof

/-! ### Fields of the instruction word (R90) -/

/-- F, bits 15:12, the family. -/
def fieldF (w : Word) : Nibble := w.extractLsb' 12 4

/-- X, bits 11:8. -/
def fieldX (w : Word) : Nibble := w.extractLsb' 8 4

/-- Y, bits 7:4. -/
def fieldY (w : Word) : Nibble := w.extractLsb' 4 4

/-- N, bits 3:0. -/
def fieldN (w : Word) : Nibble := w.extractLsb' 0 4

/-- KK, bits 7:0. -/
def fieldKK (w : Word) : Byte := w.extractLsb' 0 8

/-- NNN, bits 11:0. -/
def fieldNNN (w : Word) : Addr12 := w.extractLsb' 0 12

/-- The two consecutive bytes of an instruction, combined big-endian (R62). -/
def joinBytes (hi lo : Byte) : Word := hi ++ lo

/-- The byte of an instruction word that lies at the lower address (R62). -/
def highByte (w : Word) : Byte := w.extractLsb' 8 8

/-- The byte of an instruction word that lies at the higher address (R62). -/
def lowByte (w : Word) : Byte := w.extractLsb' 0 8

/-! ### Decoding -/

/-- Why the decoder gives no instruction. -/
inductive DecodeReject where
  /-- The word matches no row of R95; the families that have such words are 5, 8, 9, E and F (R96). -/
  | noRow (word : Word)
  /-- Fewer than two bytes are left (R90: every instruction is two bytes). -/
  | truncated
deriving DecidableEq, Repr

/-- What the decoder answers for one word. -/
abbrev Decoded := Except DecodeReject Instr

/-- Family 0 is chosen by the whole of NNN (R94); 00E0 and 00EE take precedence over 0NNN (R103). -/
def decodeFamily0 (w : Word) : Decoded :=
  if fieldNNN w = 0x0E0 then .ok .cls
  else if fieldNNN w = 0x0EE then .ok .ret
  else .ok (.sys (fieldNNN w))

/-- Family 5 needs N = 0 (R95, R96). -/
def decodeFamily5 (w : Word) : Decoded :=
  if fieldN w = 0x0 then .ok (.seReg (fieldX w) (fieldY w)) else .error (.noRow w)

/-- Family 8 is chosen by N (R94). -/
def decodeFamily8 (w : Word) : Decoded :=
  if fieldN w = 0x0 then .ok (.ldReg (fieldX w) (fieldY w))
  else if fieldN w = 0x1 then .ok (.orReg (fieldX w) (fieldY w))
  else if fieldN w = 0x2 then .ok (.andReg (fieldX w) (fieldY w))
  else if fieldN w = 0x3 then .ok (.xorReg (fieldX w) (fieldY w))
  else if fieldN w = 0x4 then .ok (.addReg (fieldX w) (fieldY w))
  else if fieldN w = 0x5 then .ok (.subReg (fieldX w) (fieldY w))
  else if fieldN w = 0x6 then .ok (.shrReg (fieldX w) (fieldY w))
  else if fieldN w = 0x7 then .ok (.subnReg (fieldX w) (fieldY w))
  else if fieldN w = 0xE then .ok (.shlReg (fieldX w) (fieldY w))
  else .error (.noRow w)

/-- Family 9 needs N = 0 (R95, R96). -/
def decodeFamily9 (w : Word) : Decoded :=
  if fieldN w = 0x0 then .ok (.sneReg (fieldX w) (fieldY w)) else .error (.noRow w)

/-- Family E is chosen by KK (R94). -/
def decodeFamilyE (w : Word) : Decoded :=
  if fieldKK w = 0x9E then .ok (.skp (fieldX w))
  else if fieldKK w = 0xA1 then .ok (.sknp (fieldX w))
  else .error (.noRow w)

/-- Family F is chosen by KK (R94). -/
def decodeFamilyF (w : Word) : Decoded :=
  if fieldKK w = 0x07 then .ok (.ldVxDt (fieldX w))
  else if fieldKK w = 0x0A then .ok (.ldVxK (fieldX w))
  else if fieldKK w = 0x15 then .ok (.ldDtVx (fieldX w))
  else if fieldKK w = 0x18 then .ok (.ldStVx (fieldX w))
  else if fieldKK w = 0x1E then .ok (.addIVx (fieldX w))
  else if fieldKK w = 0x29 then .ok (.ldFVx (fieldX w))
  else if fieldKK w = 0x33 then .ok (.ldBVx (fieldX w))
  else if fieldKK w = 0x55 then .ok (.ldMemVx (fieldX w))
  else if fieldKK w = 0x65 then .ok (.ldVxMem (fieldX w))
  else .error (.noRow w)

/-- The two-level decision of R94: the family, then the sub-opcode. Families 1, 2, 3, 4, 6, 7, A, B, C and D have
one instruction each (R97). -/
def decode (w : Word) : Decoded :=
  if fieldF w = 0x0 then decodeFamily0 w
  else if fieldF w = 0x1 then .ok (.jp (fieldNNN w))
  else if fieldF w = 0x2 then .ok (.call (fieldNNN w))
  else if fieldF w = 0x3 then .ok (.seImm (fieldX w) (fieldKK w))
  else if fieldF w = 0x4 then .ok (.sneImm (fieldX w) (fieldKK w))
  else if fieldF w = 0x5 then decodeFamily5 w
  else if fieldF w = 0x6 then .ok (.ldImm (fieldX w) (fieldKK w))
  else if fieldF w = 0x7 then .ok (.addImm (fieldX w) (fieldKK w))
  else if fieldF w = 0x8 then decodeFamily8 w
  else if fieldF w = 0x9 then decodeFamily9 w
  else if fieldF w = 0xA then .ok (.ldI (fieldNNN w))
  else if fieldF w = 0xB then .ok (.jpV0 (fieldNNN w))
  else if fieldF w = 0xC then .ok (.rnd (fieldX w) (fieldKK w))
  else if fieldF w = 0xD then .ok (.drw (fieldX w) (fieldY w) (fieldN w))
  else if fieldF w = 0xE then decodeFamilyE w
  else decodeFamilyF w

/-- R96: the word is illegal under a SYS policy, so that fetching it raises DecodeError (R102: the word and
SYS_POLICY alone decide). -/
def illegalWord (policy : SysPolicy) (w : Word) : Bool :=
  match decode w with
  | .error _ => true
  | .ok (.sys _) => policy == .decodeError
  | .ok _ => false

/-- The decoder on bytes in address order: one instruction and the bytes after it. -/
def decodeBytes : List Byte → Except DecodeReject (Instr × List Byte)
  | hi :: lo :: rest =>
    match decode (joinBytes hi lo) with
    | .ok i => .ok (i, rest)
    | .error r => .error r
  | _ => .error .truncated

/-- The instruction word `w` of a table row, numbered as the table numbers it (bit 0 is the least significant bit
of the one 16-bit word), laid out big-endian (R62) and given to the decoder. -/
def decodeTableWord (nbits w : Nat) : Option Instr :=
  let word : Word := BitVec.ofNat 16 (w % 2 ^ nbits)
  match decodeBytes [highByte word, lowByte word] with
  | .ok (i, _) => some i
  | .error _ => none

/-! ### Encoding (R95) -/

/-- A word of the format `nnn`: F ++ NNN (R90, R91). -/
def wordNNN (f : Nibble) (nnn : Addr12) : Word := f ++ nnn

/-- A word of the formats `xkk` and `x`: F ++ X ++ KK (R90, R91). -/
def wordXKK (f x : Nibble) (kk : Byte) : Word := f ++ x ++ kk

/-- A word of the formats `xy` and `xyn`: F ++ X ++ Y ++ N (R90, R91). -/
def wordXYN (f x y n : Nibble) : Word := f ++ x ++ y ++ n

/-- The word of an instruction (R95, R105: exactly one). -/
def encode : Instr → Word
  | .cls => 0x00E0
  | .ret => 0x00EE
  | .sys nnn => wordNNN 0x0 nnn
  | .jp nnn => wordNNN 0x1 nnn
  | .call nnn => wordNNN 0x2 nnn
  | .seImm x kk => wordXKK 0x3 x kk
  | .sneImm x kk => wordXKK 0x4 x kk
  | .seReg x y => wordXYN 0x5 x y 0x0
  | .ldImm x kk => wordXKK 0x6 x kk
  | .addImm x kk => wordXKK 0x7 x kk
  | .ldReg x y => wordXYN 0x8 x y 0x0
  | .orReg x y => wordXYN 0x8 x y 0x1
  | .andReg x y => wordXYN 0x8 x y 0x2
  | .xorReg x y => wordXYN 0x8 x y 0x3
  | .addReg x y => wordXYN 0x8 x y 0x4
  | .subReg x y => wordXYN 0x8 x y 0x5
  | .shrReg x y => wordXYN 0x8 x y 0x6
  | .subnReg x y => wordXYN 0x8 x y 0x7
  | .shlReg x y => wordXYN 0x8 x y 0xE
  | .sneReg x y => wordXYN 0x9 x y 0x0
  | .ldI nnn => wordNNN 0xA nnn
  | .jpV0 nnn => wordNNN 0xB nnn
  | .rnd x kk => wordXKK 0xC x kk
  | .drw x y n => wordXYN 0xD x y n
  | .skp x => wordXKK 0xE x 0x9E
  | .sknp x => wordXKK 0xE x 0xA1
  | .ldVxDt x => wordXKK 0xF x 0x07
  | .ldVxK x => wordXKK 0xF x 0x0A
  | .ldDtVx x => wordXKK 0xF x 0x15
  | .ldStVx x => wordXKK 0xF x 0x18
  | .addIVx x => wordXKK 0xF x 0x1E
  | .ldFVx x => wordXKK 0xF x 0x29
  | .ldBVx x => wordXKK 0xF x 0x33
  | .ldMemVx x => wordXKK 0xF x 0x55
  | .ldVxMem x => wordXKK 0xF x 0x65

/-- The match and mask of an instruction's row (R95): it is selected when `(word & mask) == match`, CLS and RET
before SYS (R103). -/
def opcodeRow : Instr → Word × Word
  | .cls => (0x00E0, 0xFFFF)
  | .ret => (0x00EE, 0xFFFF)
  | .sys _ => (0x0000, 0xF000)
  | .jp _ => (0x1000, 0xF000)
  | .call _ => (0x2000, 0xF000)
  | .seImm _ _ => (0x3000, 0xF000)
  | .sneImm _ _ => (0x4000, 0xF000)
  | .seReg _ _ => (0x5000, 0xF00F)
  | .ldImm _ _ => (0x6000, 0xF000)
  | .addImm _ _ => (0x7000, 0xF000)
  | .ldReg _ _ => (0x8000, 0xF00F)
  | .orReg _ _ => (0x8001, 0xF00F)
  | .andReg _ _ => (0x8002, 0xF00F)
  | .xorReg _ _ => (0x8003, 0xF00F)
  | .addReg _ _ => (0x8004, 0xF00F)
  | .subReg _ _ => (0x8005, 0xF00F)
  | .shrReg _ _ => (0x8006, 0xF00F)
  | .subnReg _ _ => (0x8007, 0xF00F)
  | .shlReg _ _ => (0x800E, 0xF00F)
  | .sneReg _ _ => (0x9000, 0xF00F)
  | .ldI _ => (0xA000, 0xF000)
  | .jpV0 _ => (0xB000, 0xF000)
  | .rnd _ _ => (0xC000, 0xF000)
  | .drw _ _ _ => (0xD000, 0xF000)
  | .skp _ => (0xE09E, 0xF0FF)
  | .sknp _ => (0xE0A1, 0xF0FF)
  | .ldVxDt _ => (0xF007, 0xF0FF)
  | .ldVxK _ => (0xF00A, 0xF0FF)
  | .ldDtVx _ => (0xF015, 0xF0FF)
  | .ldStVx _ => (0xF018, 0xF0FF)
  | .addIVx _ => (0xF01E, 0xF0FF)
  | .ldFVx _ => (0xF029, 0xF0FF)
  | .ldBVx _ => (0xF033, 0xF0FF)
  | .ldMemVx _ => (0xF055, 0xF0FF)
  | .ldVxMem _ => (0xF065, 0xF0FF)

/-- The bytes of an instruction in address order (R62). -/
def encodeBytes (i : Instr) : List Byte := [highByte (encode i), lowByte (encode i)]

end Sys2Proof
end

