-- ==== Sys2Proof/Machine/State.lean ====
section
/-!
DEFINITION. The state of the CORE as plain data (spec 10_state.md R20), the errors a step returns
(60_exceptions.md R271, R276), and the state after reset (70_reset_and_hazards.md R301).
-/

namespace Sys2Proof.Machine

/-- RAM `M` (R32) as (address, byte) pairs in canonical form: addresses strictly rising, below 4096, and no entry
equal to what an unlisted address reads as (`Memory.unlisted` in Ops.lean). -/
abbrev Memory := List Host.Cell

/-- `FB` (R37): 64 columns of 32 cells, `FB[x][y]`, true for 1. -/
abbrev Framebuffer := Vector (Vector Bool 32) 64

/-- The state tuple of R20, and two fields of the model's own (`cfg`, `draws`). -/
structure State where
  /-- `V[0..15]`, the general registers; VF is `V[15]` (R21, R25). -/
  v     : Vector Byte 16
  /-- `I`, the index register (R26). -/
  i     : Word
  /-- `pc`: between steps, the address of the next instruction to fetch (R27). -/
  pc    : Word
  /-- `S[0..15]`, the call stack slots (R29). -/
  stack : Vector Word 16
  /-- `SP`, the number of active frames, 0 to 16 (R29). -/
  sp    : Fin 17
  /-- `DT`, the delay timer (R42). -/
  dt    : Byte
  /-- `ST`, the sound timer (R42). -/
  st    : Byte
  /-- `M`, the RAM (R32). -/
  mem   : Memory
  /-- `FB`, the framebuffer (R37). -/
  fb    : Framebuffer
  /-- `K`, the key state: bit k is key k (R39, R40). -/
  keys  : BitVec 16
  /-- The configuration straps as sampled at the last reset (00_scope.md R9, R300). The MODEL's own field: the
  spec calls them fixed inputs, not state (R20, R31; log 1). -/
  cfg   : Config
  /-- How many random bytes have been drawn. The MODEL's own field, which only selects the free value
  `Config.rngDraw draws` (00_scope.md R14; log 3). -/
  draws : Nat
deriving DecidableEq, Repr

/-- `space` of the error record (R276): which store an out-of-range index names. -/
inductive Space where
  | ram
  | keys
deriving DecidableEq, Repr

/-- The errors of R271, each with the fields of the record of R276 that are valid for it. `pc` is `pc0`, the
address of the faulting instruction. A step that answers one has committed nothing (R128, R278), so the state is
the one before the step; every constructor is safe in that sense, and is the error the spec itself returns (R281). -/
inductive Fault where
  /-- Code 1 (R272): the word matches no row of the opcode map, raised by `Machine.step`; or it is 0NNN under
  SYS_POLICY = decode_error, raised by the meaning of SYS (R140). Safe: the spec's own error. -/
  | decodeError (pc word : Word)
  /-- Code 2 (R273): CALL with 16 frames active; raised by the meaning of CALL. Safe: the spec's own error. -/
  | stackOverflow (pc word : Word) (sp : Fin 17)
  /-- Code 3 (R274): RET with no frame active; raised by the meaning of RET. Safe: the spec's own error. -/
  | stackUnderflow (pc word : Word) (sp : Fin 17)
  /-- Code 4 (R275): an access above 4095 (space RAM), raised by fetch (with `word` 0), DXYN, FX33, FX55 and FX65;
  or a key index above 15 (space KEYS), raised by EX9E and EXA1. Safe: the spec's own error. -/
  | addressOutOfRange (pc word : Word) (addr : Nat) (space : Space)
deriving DecidableEq, Repr

/-- Why a step has no answer of the spec's. -/
inductive Refusal where
  /-- The instruction has no meaning in this model; answered by `exec`'s refused arms alone (there are none now).
  Safe: the run stops. -/
  | notModelled (mnemonic : String)
deriving DecidableEq, Repr

/-- What an instruction or a step answers. -/
abbrev StepResult := Host.Outcome State Fault Refusal

/-- The state right after reset (R301) under the default straps (R9): registers, stack, timers, keys and
framebuffer zero, `pc` = 0x200, and RAM as `Memory.unlisted` gives it, so that nothing is listed. -/
def State.reset : State where
  v     := Vector.replicate 16 0
  i     := 0
  pc    := Config.progBase
  stack := Vector.replicate 16 0
  sp    := 0
  dt    := 0
  st    := 0
  mem   := []
  fb    := Vector.replicate 64 (Vector.replicate 32 false)
  keys  := 0
  cfg   := Config.default
  draws := 0

end Sys2Proof.Machine
end

