-- ==== Sys2Proof/Machine/Ops.lean ====
section
/-!
DEFINITION. The named operations over RAM, registers, stack, framebuffer and pc that the meanings share, the fetch of
an instruction word, and taking an error (`State.raise`), which is all the exception machinery the CORE has
(60_exceptions.md R270, R278); the return from one is the host's and stands in Ports.lean (R279).
-/

namespace Sys2Proof.Machine

/-! ### RAM (20_memory.md) -/

/-- What an address that is not listed reads as: the reset contents of R34 under the default FONT_TABLE
(log 8). -/
def Memory.unlisted (a : Nat) : Byte :=
  if a < Config.fontSize then Config.fontByte Config.defaultFont a else 0

/-- `MemRead(a, 1)` (R12, R63). -/
def Memory.read : Memory → Nat → Byte
  | [], a => Memory.unlisted a
  | c :: rest, a => if c.1 = a then c.2 else Memory.read rest a

/-- The listed bytes without address `a`. -/
def Memory.erase (m : Memory) (a : Nat) : Memory := m.filter (fun c => c.1 != a)

/-- Put a cell before the first cell of a larger address. -/
def Memory.insert (a : Nat) (b : Byte) : Memory → Memory
  | [] => [(a, b)]
  | c :: rest => if a < c.1 then (a, b) :: c :: rest else c :: Memory.insert a b rest

/-- `MemWrite(a, 1, b)` (R12, R63), keeping the canonical form. -/
def Memory.write (m : Memory) (a : Nat) (b : Byte) : Memory :=
  if b = Memory.unlisted a then m.erase a else Memory.insert a b (m.erase a)

/-- Bytes written at consecutive addresses from `base` on (R63, R65). -/
def Memory.writeBytes (m : Memory) (base : Nat) : List Byte → Memory
  | [] => m
  | b :: bs => Memory.writeBytes (m.write base b) (base + 1) bs

/-- Canonical form, from the least address `lo` on. -/
def Memory.wfFrom : Nat → Memory → Bool
  | _, [] => true
  | lo, c :: rest =>
    decide (lo ≤ c.1) && decide (c.1 < Config.memSize) && (c.2 != Memory.unlisted c.1) &&
      Memory.wfFrom (c.1 + 1) rest

/-- The canonical form: addresses strictly rising and below 4096, no entry equal to what its address reads as
when unlisted. -/
def Memory.wf (m : Memory) : Bool := Memory.wfFrom 0 m

/-- The range check of R61 and R217 on the addresses `base .. base + len - 1`, computed as unbounded naturals: the
lowest address above 4095 among them, if there is one. A range of length 0 makes no access (R234). -/
def outOfRange (base len : Nat) : Option Nat :=
  if len ≠ 0 ∧ Config.memSize < base + len then some (max base Config.memSize) else none

/-! ### Registers, index, timers, framebuffer -/

/-- `V[x]` (R21, R93). -/
def State.reg (s : State) (x : Nibble) : Byte := s.v[x.toNat]'x.isLt

/-- `V[x] <- b` (R21). -/
def State.setReg (s : State) (x : Nibble) (b : Byte) : State := { s with v := s.v.set x.toNat b x.isLt }

/-- The number of VF (R23, R25). -/
abbrev vf : Nibble := 0xF

/-- The whole register file replaced (FX65). -/
def State.setRegs (s : State) (v : Vector Byte 16) : State := { s with v := v }

/-- `pc <- a`. -/
def State.setPc (s : State) (a : Word) : State := { s with pc := a }

/-- `I <- a` (R26). -/
def State.setI (s : State) (a : Word) : State := { s with i := a }

/-- `DT <- b` (R42). -/
def State.setDt (s : State) (b : Byte) : State := { s with dt := b }

/-- `ST <- b` (R42). -/
def State.setSt (s : State) (b : Byte) : State := { s with st := b }

/-- RAM replaced by the result of RAM writes. -/
def State.setMem (s : State) (m : Memory) : State := { s with mem := m }

/-- The framebuffer replaced by the result of CLS or DRW (R37). -/
def State.setFb (s : State) (fb : Framebuffer) : State := { s with fb := fb }

/-- The keys replaced by the host (R40). -/
def State.setKeys (s : State) (k : BitVec 16) : State := { s with keys := k }

/-- One more random byte drawn (R14). -/
def State.countDraw (s : State) : State := { s with draws := s.draws + 1 }

/-- `M[a]` in a state. -/
def State.readByte (s : State) (a : Nat) : Byte := s.mem.read a

/-- `FB[x][y]` (R37). -/
def Framebuffer.cell (fb : Framebuffer) (x : Fin 64) (y : Fin 32) : Bool := fb[x][y]

/-- `FB[x][y] <- b` (R37). -/
def Framebuffer.setCell (fb : Framebuffer) (x : Fin 64) (y : Fin 32) (b : Bool) : Framebuffer :=
  fb.set x (fb[x].set y b)

/-- The framebuffer with every cell 0 (R141, R301). -/
def Framebuffer.clear : Framebuffer := Vector.replicate 64 (Vector.replicate 32 false)

/-- `K[k]` (R39). -/
def State.key (s : State) (k : Fin 16) : Bool := s.keys[k]

/-! ### The program counter (40_fetch_decode_dispatch.md) -/

/-- `pc <- pc0 + 2`, for every instruction before it executes (R124). Every meaning starts from the pre-fetch state
and applies this itself (log 5). -/
def State.advance (s : State) : State := s.setPc (s.pc + 2)

/-- The skip of R160: 2 more when the condition holds. -/
def State.skipIf (s : State) (cond : Bool) : State :=
  if cond then s.advance.setPc (s.advance.pc + 2) else s.advance

/-! ### The call stack (10_state.md R29) -/

/-- Push: `S[SP] <- a; SP <- SP + 1`, only when SP < 16. -/
def State.push (s : State) (a : Word) (h : s.sp.val < 16) : State :=
  { s with stack := s.stack.set s.sp.val a h, sp := ⟨s.sp.val + 1, Nat.succ_lt_succ h⟩ }

/-- The slot below SP, `S[SP - 1]`, when a frame is active. -/
def State.top (s : State) (h : s.sp.val ≠ 0) : Word :=
  s.stack[s.sp.val - 1]'(by have := s.sp.isLt; have := h; omega)

/-- Pop: `SP <- SP - 1`, only when SP > 0; the slot keeps its value. -/
def State.pop (s : State) : State :=
  { s with sp := ⟨s.sp.val - 1, by have := s.sp.isLt; omega⟩ }

/-! ### Taking an error (60_exceptions.md) -/

/-- The cause given to `raise E(info)` (00_scope.md R13, R271). -/
inductive Cause where
  | decode
  | stackOverflow
  | stackUnderflow
  | address (addr : Nat) (space : Space)
deriving DecidableEq, Repr

/-- Taking an error, from the state before the step: the step ends, commits nothing (R128, R278), and returns the
record of R276, with `pc` = pc0, the fetched word, and `sp` where it is valid. -/
def State.raise (s : State) (word : Word) : Cause → StepResult
  | .decode => .fault (.decodeError s.pc word)
  | .stackOverflow => .fault (.stackOverflow s.pc word s.sp)
  | .stackUnderflow => .fault (.stackUnderflow s.pc word s.sp)
  | .address a space => .fault (.addressOutOfRange s.pc word a space)

/-- The RAM check of R217 before an instruction's accesses to `base .. base + len - 1`: it raises with the lowest
address out of range, or goes on. -/
def State.checked (s : State) (word : Word) (base len : Nat) (next : State) : StepResult :=
  match outOfRange base len with
  | some a => s.raise word (.address a .ram)
  | none => .next next

/-! ### Fetch (R122) -/

/-- Fetch: the two bytes at pc0, big-endian (R62), both addresses checked; on an error, the lowest bad address, for
which no word was fetched (R276: word = 0). -/
def State.fetch (s : State) : Except Nat Word :=
  match outOfRange s.pc.toNat 2 with
  | some a => .error a
  | none => .ok (joinBytes (s.readByte s.pc.toNat) (s.readByte (s.pc.toNat + 1)))

/-- A word placed in RAM big-endian at an address below 0xFFF (R62), as the host RAM port would (R36). -/
def State.placeWord (s : State) (a : Nat) (w : Word) : State :=
  s.setMem (s.mem.writeBytes a [highByte w, lowByte w])

end Sys2Proof.Machine
end

