-- ==== Sys2Proof/Machine/Flags.lean ====
section
/-!
DEFINITION. Every flag computation of the ISA, all of them written to VF: carry, no borrow and shifted-out bit
(43_alu.md R180, R187 to R191), and how the flag is written last. The collision flag of DRW is computed by the
compositor in Sprite.lean (45_sprite.md R233) and written here.
-/

namespace Sys2Proof.Machine

/-- Carry out of bit 7 of an addition (R187): the sum exceeds 255. -/
def carryOut (a b : Byte) : Bool := decide (255 < a.toNat + b.toNat)

/-- No borrow of `a - b` (R188, R190): a ≥ b. -/
def noBorrow (a b : Byte) : Bool := decide (b.toNat ≤ a.toNat)

/-- The bit a right shift by one shifts out (R189): bit 0. -/
def shrOut (a : Byte) : Bool := a.getLsbD 0

/-- The bit a left shift by one shifts out (R191): bit 7. -/
def shlOut (a : Byte) : Bool := a.getLsbD 7

/-- A flag as the value of VF. -/
def flagByte (f : Bool) : Byte := if f then 1 else 0

/-- `VF <- f` (R25). -/
def State.setFlag (s : State) (f : Bool) : State := s.setReg vf (flagByte f)

/-- The write order of R180 for the flag-writing ALU instructions: the result to V[X], then the flag to VF, so that
with X = 0xF the flag stays (R194). -/
def State.aluWrite (s : State) (x : Nibble) (result : Byte) (flag : Bool) : State :=
  (s.advance.setReg x result).setFlag flag

end Sys2Proof.Machine
end

