-- ==== Sys2Proof/Machine/Operands.lean ====
section
/-!
DEFINITION. The operand forms of the instructions: the shift source, the font digit, the key index, the block of
registers V0..VX, the BCD digits and the effective addresses through `I` (44_index_and_memory.md R216).
-/

namespace Sys2Proof.Machine

/-- The source of SHR and SHL by QUIRK_SHIFT_SOURCE (R189, R191). -/
def State.shiftSource (s : State) (x y : Nibble) : Byte :=
  match s.cfg.shiftSource with
  | .vx => s.reg x
  | .vy => s.reg y

/-- The digit of FX29 by FONT_ADDR_MODE (R212). -/
def State.fontDigit (s : State) (x : Nibble) : Nat :=
  match s.cfg.fontAddrMode with
  | .lowNibble => (s.reg x).toNat % 16
  | .fullByte => (s.reg x).toNat

/-- `FONT_BASE + 5 * d` (R212). -/
def fontAddress (d : Nat) : Word := BitVec.ofNat 16 (Config.fontBase + 5 * d)

/-- `keyindex(k)` (R167): the key, or none where KEY_INDEX_MODE = fault raises AddressOutOfRange(k, KEYS). -/
def keyIndex (mode : KeyIndexMode) (k : Byte) : Option (Fin 16) :=
  if h : k.toNat < 16 then some ⟨k.toNat, h⟩
  else
    match mode with
    | .fault => none
    | .lowNibble => some (Fin.ofNat 16 (k.toNat % 16))

/-- The lowest-numbered pressed key, `min { k | K[k] = 1 }` (R253), if any key is pressed. -/
def State.lowestKey (s : State) : Option (Fin 16) := (List.finRange 16).find? (fun k => s.key k)

/-- The bytes V[0], .., V[X] that FX55 stores (R214). -/
def State.regBlock (s : State) (x : Nibble) : List Byte := s.v.toList.take (x.toNat + 1)

/-- The registers after FX65 (R215): V[i] from M[I + i] for i in 0..X, the others kept. -/
def State.loadBlock (s : State) (x : Nibble) : Vector Byte 16 :=
  Vector.ofFn (fun k : Fin 16 => if k.val ≤ x.toNat then s.readByte (s.i.toNat + k.val) else s.v[k])

/-- How many registers V0..VX are (R214, R215: inclusive). -/
def blockLen (x : Nibble) : Nat := x.toNat + 1

/-- `I` after FX55 or FX65 by QUIRK_LOADSTORE_INC_I (R214, R215). -/
def State.indexAfterBlock (s : State) (x : Nibble) : Word :=
  if s.cfg.loadStoreIncI then s.i + BitVec.ofNat 16 (blockLen x) else s.i

/-- The three decimal digits of a byte, hundreds first (R213). -/
def bcdDigits (b : Byte) : List Byte :=
  [BitVec.ofNat 8 (b.toNat / 100), BitVec.ofNat 8 (b.toNat / 10 % 10), BitVec.ofNat 8 (b.toNat % 10)]

/-- The bytes of a sprite, M[I + r] for r in 0..n-1 (R230). -/
def State.spriteRows (s : State) (n : Nibble) : List Byte :=
  (List.range n.toNat).map (fun r => s.readByte (s.i.toNat + r))

end Sys2Proof.Machine
end

