-- ==== Sys2Proof/Machine/Alu.lean ====
section
/-!
DEFINITION. 8-bit ALU, register loads and random (43_alu.md R180 to R194). Every result is reduced mod 256 and
every source is read before any write (R180).
-/

namespace Sys2Proof.Machine

/-- LD Vx, KK (R181). -/
def execLdImm (x : Nibble) (kk : Byte) (s : State) : StepResult := .next (s.advance.setReg x kk)

/-- ADD Vx, KK (R182): no flag. -/
def execAddImm (x : Nibble) (kk : Byte) (s : State) : StepResult := .next (s.advance.setReg x (s.reg x + kk))

/-- LD Vx, Vy (R183). -/
def execLdReg (x y : Nibble) (s : State) : StepResult := .next (s.advance.setReg x (s.reg y))

/-- OR Vx, Vy (R184): no flag. -/
def execOrReg (x y : Nibble) (s : State) : StepResult := .next (s.advance.setReg x (s.reg x ||| s.reg y))

/-- AND Vx, Vy (R185): no flag. -/
def execAndReg (x y : Nibble) (s : State) : StepResult := .next (s.advance.setReg x (s.reg x &&& s.reg y))

/-- XOR Vx, Vy (R186): no flag. -/
def execXorReg (x y : Nibble) (s : State) : StepResult := .next (s.advance.setReg x (s.reg x ^^^ s.reg y))

/-- ADD Vx, Vy (R187): VF is the carry. -/
def execAddReg (x y : Nibble) (s : State) : StepResult :=
  .next (s.aluWrite x (s.reg x + s.reg y) (carryOut (s.reg x) (s.reg y)))

/-- SUB Vx, Vy (R188): VF is no borrow. -/
def execSubReg (x y : Nibble) (s : State) : StepResult :=
  .next (s.aluWrite x (s.reg x - s.reg y) (noBorrow (s.reg x) (s.reg y)))

/-- SHR Vx, Vy (R189): VF is bit 0 of the source. -/
def execShrReg (x y : Nibble) (s : State) : StepResult :=
  .next (s.aluWrite x (s.shiftSource x y >>> 1) (shrOut (s.shiftSource x y)))

/-- SUBN Vx, Vy (R190): VF is no borrow of V[Y] - V[X]. -/
def execSubnReg (x y : Nibble) (s : State) : StepResult :=
  .next (s.aluWrite x (s.reg y - s.reg x) (noBorrow (s.reg y) (s.reg x)))

/-- SHL Vx, Vy (R191): VF is bit 7 of the source. -/
def execShlReg (x y : Nibble) (s : State) : StepResult :=
  .next (s.aluWrite x (s.shiftSource x y <<< 1) (shlOut (s.shiftSource x y)))

/-- RND Vx, KK (R192): a free byte under a mask; no flag. -/
def execRnd (x : Nibble) (kk : Byte) (s : State) : StepResult :=
  .next (s.advance.countDraw.setReg x (Config.rngDraw s.draws &&& kk))

end Sys2Proof.Machine
end

