-- ==== Sys2Proof/Machine/Flow.lean ====
section
/-!
DEFINITION. Family 0, jumps, calls and returns (41_flow_and_system.md R140 to R147).
-/

namespace Sys2Proof.Machine

/-- CLS (R141): every framebuffer cell 0. -/
def execCls (s : State) : StepResult := .next (s.advance.setFb Framebuffer.clear)

/-- RET (R142): StackUnderflow when SP = 0; else pop into pc. -/
def execRet (s : State) : StepResult :=
  if h : s.sp.val ≠ 0 then .next (s.advance.pop.setPc (s.top h))
  else s.raise (encode .ret) .stackUnderflow

/-- SYS NNN (R140): DecodeError under SYS_POLICY = decode_error, a no-op under nop (log 4). -/
def execSys (nnn : Addr12) (s : State) : StepResult :=
  match s.cfg.sysPolicy with
  | .decodeError => s.raise (encode (.sys nnn)) .decode
  | .nop => .next s.advance

/-- JP NNN (R143). -/
def execJp (nnn : Addr12) (s : State) : StepResult := .next (s.advance.setPc (zext16 nnn))

/-- CALL NNN (R144): StackOverflow when SP = 16; else push pc0 + 2, the value pc has after the increment of R124, then
overwrite pc with the target. -/
def execCall (nnn : Addr12) (s : State) : StepResult :=
  if h : s.sp.val < 16 then .next ((s.push s.advance.pc h).setPc (zext16 nnn))
  else s.raise (encode (.call nnn)) .stackOverflow

/-- JP V0, NNN (R145): the sum is not reduced to 12 bits. -/
def execJpV0 (nnn : Addr12) (s : State) : StepResult :=
  .next (s.advance.setPc (zext16 nnn + zext16 (s.reg 0x0)))

end Sys2Proof.Machine
end

