-- ==== Sys2Proof/Machine/IndexMem.lean ====
section
/-!
DEFINITION. Index register, font address, BCD and register blocks (44_index_and_memory.md R210 to R217).
-/

namespace Sys2Proof.Machine

/-- LD I, NNN (R210). -/
def execLdI (nnn : Addr12) (s : State) : StepResult := .next (s.advance.setI (zext16 nnn))

/-- ADD I, Vx (R211): mod 65536, no flag, no error. -/
def execAddIVx (x : Nibble) (s : State) : StepResult := .next (s.advance.setI (s.i + zext16 (s.reg x)))

/-- LD F, Vx (R212). -/
def execLdFVx (x : Nibble) (s : State) : StepResult := .next (s.advance.setI (fontAddress (s.fontDigit x)))

/-- LD B, Vx (R213): three digits at M[I], M[I+1], M[I+2]; all three addresses checked before any write (R217). -/
def execLdBVx (x : Nibble) (s : State) : StepResult :=
  s.checked (encode (.ldBVx x)) s.i.toNat 3
    (s.advance.setMem (s.mem.writeBytes s.i.toNat (bcdDigits (s.reg x))))

/-- LD [I], Vx (R214): V0..VX to M[I..I+X], then I by QUIRK_LOADSTORE_INC_I. -/
def execLdMemVx (x : Nibble) (s : State) : StepResult :=
  s.checked (encode (.ldMemVx x)) s.i.toNat (blockLen x)
    ((s.advance.setMem (s.mem.writeBytes s.i.toNat (s.regBlock x))).setI (s.indexAfterBlock x))

/-- LD Vx, [I] (R215): V0..VX from M[I..I+X], then I by QUIRK_LOADSTORE_INC_I. -/
def execLdVxMem (x : Nibble) (s : State) : StepResult :=
  s.checked (encode (.ldVxMem x)) s.i.toNat (blockLen x)
    ((s.advance.setRegs (s.loadBlock x)).setI (s.indexAfterBlock x))

end Sys2Proof.Machine
end

