-- ==== Sys2Proof/Machine/Skips.lean ====
section
/-!
DEFINITION. Conditional skips (42_skips.md R160 to R167).
-/

namespace Sys2Proof.Machine

/-- SE Vx, KK (R161). -/
def execSeImm (x : Nibble) (kk : Byte) (s : State) : StepResult := .next (s.skipIf (s.reg x == kk))

/-- SNE Vx, KK (R162). -/
def execSneImm (x : Nibble) (kk : Byte) (s : State) : StepResult := .next (s.skipIf (s.reg x != kk))

/-- SE Vx, Vy (R163). -/
def execSeReg (x y : Nibble) (s : State) : StepResult := .next (s.skipIf (s.reg x == s.reg y))

/-- SNE Vx, Vy (R164). -/
def execSneReg (x y : Nibble) (s : State) : StepResult := .next (s.skipIf (s.reg x != s.reg y))

/-- A skip on the key that V[X] names: pressed (`want` true) or not pressed (R165, R166), or the error of
R167. -/
def State.skipOnKey (s : State) (word : Word) (x : Nibble) (want : Bool) : StepResult :=
  match keyIndex s.cfg.keyIndexMode (s.reg x) with
  | some k => .next (s.skipIf (s.key k == want))
  | none => s.raise word (.address (s.reg x).toNat .keys)

/-- SKP Vx (R165). -/
def execSkp (x : Nibble) (s : State) : StepResult := s.skipOnKey (encode (.skp x)) x true

/-- SKNP Vx (R166). -/
def execSknp (x : Nibble) (s : State) : StepResult := s.skipOnKey (encode (.sknp x)) x false

end Sys2Proof.Machine
end

