-- ==== Sys2Proof/Machine/Sprite.lean ====
section
/-!
DEFINITION. The sprite XOR compositor and collision detector (45_sprite.md R230 to R237), written as the loops of
R230's pseudocode.
-/

namespace Sys2Proof.Machine

/-- The compositor during one draw: the framebuffer so far and the collision flag so far (R233). -/
structure Canvas where
  fb      : Framebuffer
  collide : Bool
deriving DecidableEq, Repr

/-- The framebuffer column of sprite column c: (x0 + c) mod 64 (R230, R232). -/
def wrapX (x0 : Byte) (c : Nat) : Fin 64 := Fin.ofNat 64 (x0.toNat + c)

/-- The framebuffer row of sprite row r: (y0 + r) mod 32 (R230, R232). -/
def wrapY (y0 : Byte) (r : Nat) : Fin 32 := Fin.ofNat 32 (y0.toNat + r)

/-- Column c of a sprite row, c in 0..7: bit 7 is column 0 (R231; PRESUMED by the spec, log 13). -/
def spriteBit (row : Byte) (c : Nat) : Bool := row.getLsbD (7 - c)

/-- One set sprite pixel: a collision if the cell is set, and the cell inverted (R230, R233). -/
def Canvas.flip (k : Canvas) (x : Fin 64) (y : Fin 32) : Canvas where
  fb      := k.fb.setCell x y (!k.fb.cell x y)
  collide := k.collide || k.fb.cell x y

/-- One sprite row: its set pixels, column 0 to column 7 (R230). -/
def Canvas.drawRow (k : Canvas) (x0 : Byte) (y : Fin 32) (row : Byte) : Canvas :=
  (List.range 8).foldl (fun k c => if spriteBit row c then k.flip (wrapX x0 c) y else k) k

/-- The sprite's rows from row number r on (R230). -/
def Canvas.drawRows (k : Canvas) (x0 y0 : Byte) (r : Nat) : List Byte → Canvas
  | [] => k
  | row :: rows => Canvas.drawRows (k.drawRow x0 (wrapY y0 r) row) x0 y0 (r + 1) rows

/-- The whole draw of DXYN from a state: the collision flag starts cleared (R233). -/
def State.composite (s : State) (x y n : Nibble) : Canvas :=
  Canvas.drawRows ⟨s.fb, false⟩ (s.reg x) (s.reg y) 0 (s.spriteRows n)

/-- DRW Vx, Vy, N (R230): all N addresses checked first; VF is written once, last. -/
def execDrw (x y n : Nibble) (s : State) : StepResult :=
  s.checked (encode (.drw x y n)) s.i.toNat n.toNat
    ((s.advance.setFb (s.composite x y n).fb).setFlag (s.composite x y n).collide)

end Sys2Proof.Machine
end

