-- ==== Sys2Proof/Machine/TimersKeys.lean ====
section
/-!
DEFINITION. Timer access and wait-for-key (46_timers_and_keys.md R250 to R255).
-/

namespace Sys2Proof.Machine

/-- LD Vx, DT (R250). -/
def execLdVxDt (x : Nibble) (s : State) : StepResult := .next (s.advance.setReg x s.dt)

/-- LD DT, Vx (R251). -/
def execLdDtVx (x : Nibble) (s : State) : StepResult := .next (s.advance.setDt (s.reg x))

/-- LD ST, Vx (R252). -/
def execLdStVx (x : Nibble) (s : State) : StepResult := .next (s.advance.setSt (s.reg x))

/-- LD Vx, K (R253): with no key pressed, pc is set back to pc0 and nothing else changes; else V[X] takes the
lowest-numbered pressed key. -/
def execLdVxK (x : Nibble) (s : State) : StepResult :=
  match s.lowestKey with
  | none => .next (s.advance.setPc s.pc)
  | some k => .next (s.advance.setReg x (BitVec.ofNat 8 k.val))

end Sys2Proof.Machine
end

