-- ==== Sys2Proof/Machine/Step.lean ====
section
/-!
DEFINITION. The step transaction (40_fetch_decode_dispatch.md R120, R132): fetch, decode, execute, with the first
error winning (60_exceptions.md R277); and where a word must lie to be fetched next.
-/

namespace Sys2Proof.Machine

/-- `step()` (R132). The increment of pc (R124) is in the meanings (log 5). -/
def step (s : State) : Host.Outcome State Fault Refusal :=
  match s.fetch with
  | .error a => s.raise 0 (.address a .ram)
  | .ok w =>
    match decode w with
    | .error _ => s.raise w .decode
    | .ok i => exec i s

/-- `s` with an instruction word stored where step fetches its next instruction (R27, R62), as the host RAM port
stores a program (R303; log 10). With pc above 0xFFE no such place exists (R122) and `s` is unchanged. -/
def State.withFetchWord (s : State) (nbits w : Nat) : State :=
  if s.pc.toNat < 0xFFF then s.placeWord s.pc.toNat (BitVec.ofNat 16 (w % 2 ^ nbits)) else s

end Sys2Proof.Machine
end

