-- ==== Sys2Proof/Machine/Ports.lean ====
section
/-!
DEFINITION. The host's ports (92_eei_decisions.md D2) as transactions that act between steps (20_memory.md R70): each
one atomic, in any number and any order. `Transaction.step` is the CORE's own step; a finite run is a list of
transactions, an infinite one a schedule.
The host's recovery from an error (60_exceptions.md R279) is among them.
-/

namespace Sys2Proof.Machine

/-! ### Reset (70_reset_and_hazards.md R300, R301) -/

/-- The RAM contents after reset that differ from `Memory.unlisted`: none under the default FONT_TABLE (R34). -/
def resetMemory (font : FontTable) : Memory :=
  ((List.range Config.fontSize).map (fun a => (a, Config.fontByte font a))).filter
    (fun c => c.2 != Memory.unlisted c.1)

/-- The reset state under given straps (R301); under the defaults of R9 it is `State.reset`. -/
def State.resetWith (straps : Config) : State :=
  { State.reset with mem := resetMemory straps.fontTable, cfg := straps }

/-- `host_reset()` (R300): every piece of state to its reset value, and the straps sampled. The count of random
draws is not architectural (R47) and goes on, so that no law relates draws before and after a reset (log 3). -/
def hostReset (straps : Config) (s : State) : State := { State.resetWith straps with draws := s.draws }

/-! ### RAM, framebuffer, key and timer ports (10_state.md) -/

/-- `host_mem_write(a, v)` (R36): any of the 4096 addresses, the font and reserved area included (R35). -/
def hostMemWrite (a : Addr12) (b : Byte) (s : State) : State := s.setMem (s.mem.write a.toNat b)

/-- `host_mem_read(a)` (R36). -/
def hostMemRead (a : Addr12) (s : State) : Byte := s.readByte a.toNat

/-- `host_fb_read(x, y)` (R38). -/
def hostFbRead (x : Fin 64) (y : Fin 32) (s : State) : Bool := s.fb.cell x y

/-- `host_set_keys(k16)` (R40): K[k] <- bit k of k16. -/
def hostSetKeys (k16 : BitVec 16) (s : State) : State := s.setKeys k16

/-- One timer one tick down, stopping at 0 (R44). -/
def tickDown (b : Byte) : Byte := if b = 0 then 0 else b - 1

/-- `host_tick()` (R44): both timers in one transaction. -/
def hostTick (s : State) : State := (s.setDt (tickDown s.dt)).setSt (tickDown s.st)

/-- The output `sound_active` (R45). -/
def soundActive (s : State) : Bool := s.st != 0

/-! ### Recovery and inspection (60_exceptions.md) -/

/-- `host_skip()` (R279): `pc <- (pc + 2) mod 65536` and nothing else. -/
def hostSkip (s : State) : State := s.setPc (s.pc + 2)

/-- What `host_peek()` returns (R289). -/
structure Peek where
  v     : Vector Byte 16
  i     : Word
  pc    : Word
  sp    : Fin 17
  stack : Vector Word 16
  dt    : Byte
  st    : Byte
  keys  : BitVec 16
deriving DecidableEq, Repr

/-- `host_peek()` (R289). -/
def hostPeek (s : State) : Peek where
  v     := s.v
  i     := s.i
  pc    := s.pc
  sp    := s.sp
  stack := s.stack
  dt    := s.dt
  st    := s.st
  keys  := s.keys

/-! ### The error record (R271, R276) -/

/-- The record of `Err`; a field that R276 does not call valid for the error is absent (log 11). -/
structure ErrRecord where
  code  : BitVec 3
  pc    : Word
  word  : Word
  addr  : Option (BitVec 17)
  space : Option (BitVec 1)
  sp    : Option (BitVec 5)
deriving DecidableEq, Repr

/-- The space bit: RAM 0, KEYS 1 (R276). -/
def spaceBit : Space → BitVec 1
  | .ram => 0
  | .keys => 1

/-- The record of an error (R271 for the codes 1 to 4, R276 for the fields); `errCode` gives code 0. -/
def errRecord : Fault → ErrRecord
  | .decodeError pc w => ⟨1, pc, w, none, none, none⟩
  | .stackOverflow pc w sp => ⟨2, pc, w, none, none, some (BitVec.ofNat 5 sp.val)⟩
  | .stackUnderflow pc w sp => ⟨3, pc, w, none, none, some (BitVec.ofNat 5 sp.val)⟩
  | .addressOutOfRange pc w a space => ⟨4, pc, w, some (BitVec.ofNat 17 a), some (spaceBit space), none⟩

/-! ### Transactions (R70) -/

/-- One transaction: a step of the CORE or a use of one host port. -/
inductive Transaction where
  | step
  | hostReset (straps : Config)
  | hostMemWrite (a : Addr12) (b : Byte)
  | hostMemRead (a : Addr12)
  | hostFbRead (x : Fin 64) (y : Fin 32)
  | hostSetKeys (k16 : BitVec 16)
  | hostTick
  | hostSkip
  | hostPeek
deriving DecidableEq, Repr

/-- What a transaction returns: a step Ok or Err (R121), a read port its value, a write port nothing. -/
inductive Reply where
  | ok
  | err (record : ErrRecord)
  | unmodelled (r : Refusal)
  | done
  | byte (b : Byte)
  | cell (b : Bool)
  | peek (p : Peek)
deriving DecidableEq, Repr

/-- The result port `err_code[2:0]` of a step (R271): 0 for Ok, else the error's code. A reply that is no result of a
step has none. -/
def errCode : Reply → Option (BitVec 3)
  | .ok => some 0
  | .err r => some r.code
  | .unmodelled _ | .done | .byte _ | .cell _ | .peek _ => none

/-- The step transaction: on Err nothing is committed and the state stays (R128, R278). -/
def stepTransaction (s : State) : State × Reply :=
  match step s with
  | .next t => (t, .ok)
  | .fault f => (s, .err (errRecord f))
  | .refused r => (s, .unmodelled r)

/-- One transaction (R70): the state after it and what it returned. -/
def transact (t : Transaction) (s : State) : State × Reply :=
  match t with
  | .step => stepTransaction s
  | .hostReset straps => (hostReset straps s, .done)
  | .hostMemWrite a b => (hostMemWrite a b s, .done)
  | .hostMemRead a => (s, .byte (hostMemRead a s))
  | .hostFbRead x y => (s, .cell (hostFbRead x y s))
  | .hostSetKeys k => (hostSetKeys k s, .done)
  | .hostTick => (hostTick s, .done)
  | .hostSkip => (hostSkip s, .done)
  | .hostPeek => (s, .peek (hostPeek s))

/-- Transactions in their total order (R71). -/
def transactAll : List Transaction → State → State
  | [], s => s
  | t :: ts, s => transactAll ts (transact t s).1

/-! ### Infinite runs (46_timers_and_keys.md R255) -/

/-- What the host does for ever: the transaction that stands at each place of an infinite run. A run without an end, such
as a key wait that no key ends (R255), is a run like any other. -/
abbrev Schedule := Nat → Transaction

/-- The state of an infinite run after its first `n` transactions. -/
def stateAt (sched : Schedule) (s : State) : Nat → State
  | 0 => s
  | n + 1 => (transact (sched n) (stateAt sched s n)).1

/-- What transaction number `n` of an infinite run returned. -/
def replyAt (sched : Schedule) (s : State) (n : Nat) : Reply := (transact (sched n) (stateAt sched s n)).2

/-- The run in which the host only ever calls `step`. -/
def stepForever : Schedule := fun _ => .step

/-! ### Loading a ROM (20_memory.md R69, 70_reset_and_hazards.md R303) -/

/-- The writes of a ROM image from an address on. -/
def romWritesFrom (a : Nat) : List Byte → List Transaction
  | [] => []
  | b :: bs => .hostMemWrite (BitVec.ofNat 12 a) b :: romWritesFrom (a + 1) bs

/-- The transactions that load an image at 0x200, one byte each in order; an image over 3584 bytes cannot be loaded
(R303, D30; log 12). -/
def loadRom (image : List Byte) : Option (List Transaction) :=
  if image.length ≤ Config.romMax then some (romWritesFrom Config.progBase.toNat image) else none

/-- Boot (R303): reset, then the image. -/
def boot (straps : Config) (image : List Byte) (s : State) : Option State :=
  (loadRom image).map (fun ts => transactAll (.hostReset straps :: ts) s)

end Sys2Proof.Machine
end

