-- ==== Sys2Proof/Safety.lean ====
section
/-!
DEFINITION. What claims about runs are stated in: the invariants of the state, the states that transactions can
reach, and a run without errors (60_exceptions.md R281: every Err is a fault that never counts as success).
-/

namespace Sys2Proof.Machine

/-- RAM is in its canonical form: equal memories are equal data. -/
def State.memWf (s : State) : Prop := s.mem.wf = true

/-- Every active stack frame holds a return address a CALL can push, at most 0x1000 (41_flow_and_system.md R142,
R144). -/
def State.framesBounded (s : State) : Prop :=
  ∀ k : Fin 16, k.val < s.sp.val → s.stack[k].toNat ≤ 0x1000

/-- The bound of 10_state.md R27 on the values `pc` takes. -/
def State.pcBounded (s : State) : Prop := s.pc.toNat ≤ 0x10FE

/-- The invariant of the running machine. -/
structure State.Inv (s : State) : Prop where
  mem    : s.memWf
  frames : s.framesBounded
  pc     : s.pcBounded

/-- The states that a list of transactions reaches from the reset under some straps (R70, R303). -/
def State.Reachable (s : State) : Prop :=
  ∃ (straps : Config) (ts : List Transaction), s = transactAll ts (State.resetWith straps)

/-- The replies of a list of transactions, in order. -/
def replies : List Transaction → State → List Reply
  | [], _ => []
  | t :: ts, s => (transact t s).2 :: replies ts (transact t s).1

/-- A step's reply that is no success: an Err (R281), or an answer outside the model. -/
def Reply.failed : Reply → Bool
  | .err _ | .unmodelled _ => true
  | .ok | .done | .byte _ | .cell _ | .peek _ => false

/-- A finite run in which no step returned Err (R281). -/
def safeRun (ts : List Transaction) (s : State) : Prop :=
  ∀ r ∈ replies ts s, r.failed = false

/-- An infinite run in which no step returned Err (R255, R281). -/
def safeForever (sched : Schedule) (s : State) : Prop :=
  ∀ n, (replyAt sched s n).failed = false

end Sys2Proof.Machine
end

