-- ==== Sys2Proof/Certificates/Slice0/Obligations.lean ====
section
/-!
DEFINITION. The statements for the provers, each a `def Obligations.<Name> : Prop`, made from the numbered rules of
spec/. Register values and addresses are stated as natural numbers, instruction words as concatenations of the fields
of 30_encoding.md R90, and every fault with its whole record, so that nothing is said through the meaning's own
helpers.
-/

open Sys2Proof Sys2Proof.Machine

namespace Sys2Proof.Claims

/-- The parts of the state beside the registers and pc that an instruction may write. -/
inductive Part where
  | index | stack | dt | st | ram | fb | draws
deriving DecidableEq, Repr

/-- What an instruction leaves unchanged: every register but those of `regs`, every part not in `parts`, and the keys
and straps always (R31, R39). pc is not spoken of. -/
structure Frame (s t : State) (regs : Nibble → Prop) (parts : List Part) : Prop where
  regs  : ∀ r, ¬ regs r → t.reg r = s.reg r
  index : Part.index ∉ parts → t.i = s.i
  stack : Part.stack ∉ parts → t.stack = s.stack ∧ t.sp = s.sp
  dt    : Part.dt ∉ parts → t.dt = s.dt
  st    : Part.st ∉ parts → t.st = s.st
  ram   : Part.ram ∉ parts → ∀ a, t.readByte a = s.readByte a
  fb    : Part.fb ∉ parts → ∀ x y, t.fb.cell x y = s.fb.cell x y
  draws : Part.draws ∉ parts → t.draws = s.draws
  keys  : t.keys = s.keys
  cfg   : t.cfg = s.cfg

/-- No register. -/
def noReg : Nibble → Prop := fun _ => False

/-- The register VX alone. -/
def onlyReg (x : Nibble) : Nibble → Prop := fun r => r = x

/-- VX and VF, for the flag-writing instructions (R23). -/
def regAndFlag (x : Nibble) : Nibble → Prop := fun r => r = x ∨ r = 0xF

/-- The two bytes at pc, the first in the high half (R62). -/
def wordAtPc (s : State) : Word := s.readByte s.pc.toNat ++ s.readByte (s.pc.toNat + 1)

/-- The answer after an instruction that only moves pc and writes nothing else. -/
def movesPcTo (i : Instr) (s : State) (a : Word) : Prop :=
  ∃ t, exec i s = .next t ∧ t.pc = a ∧ Frame s t noReg []

/-- A set pixel of the sprite of DXYN lands on the cell (cx, cy) (R230, R231, R232). -/
def spriteHits (s : State) (x y n : Nibble) (cx : Fin 64) (cy : Fin 32) : Prop :=
  ∃ r c : Nat, r < n.toNat ∧ c < 8 ∧ ((s.reg x).toNat + c) % 64 = cx.val ∧ ((s.reg y).toNat + r) % 32 = cy.val ∧
    (s.readByte (s.i.toNat + r)).getLsbD (7 - c) = true

/-- The registers an instruction writes, as R22 and R23 list them. -/
def writesReg : Instr → Nibble → Prop
  | .ldImm x _, r | .addImm x _, r | .ldReg x _, r | .orReg x _, r | .andReg x _, r | .xorReg x _, r
  | .rnd x _, r | .ldVxDt x, r | .ldVxK x, r => r = x
  | .addReg x _, r | .subReg x _, r | .shrReg x _, r | .subnReg x _, r | .shlReg x _, r => r = x ∨ r = 0xF
  | .drw _ _ _, r => r = 0xF
  | .ldVxMem x, r => r.toNat ≤ x.toNat
  | .cls, _ | .ret, _ | .sys _, _ | .jp _, _ | .call _, _ | .seImm _ _, _ | .sneImm _ _, _ | .seReg _ _, _
  | .sneReg _ _, _ | .ldI _, _ | .jpV0 _, _ | .skp _, _ | .sknp _, _ | .ldDtVx _, _ | .ldStVx _, _
  | .addIVx _, _ | .ldFVx _, _ | .ldBVx _, _ | .ldMemVx _, _ => False

/-- A host transaction that neither presses a key nor writes RAM, pc or everything (R255): time may pass and the host may
look. -/
def waitsOrLooks : Transaction → Prop
  | .step | .hostTick | .hostMemRead _ | .hostFbRead _ _ | .hostPeek => True
  | .hostReset _ | .hostMemWrite _ _ | .hostSetKeys _ | .hostSkip => False

/-- The font table of R33, glyph by glyph. PRESUMED by the spec, which marks the bytes as general knowledge (log 9). -/
def fontOfR33 : List Byte :=
  [0xF0, 0x90, 0x90, 0x90, 0xF0] ++ [0x20, 0x60, 0x20, 0x20, 0x70] ++ [0xF0, 0x10, 0xF0, 0x80, 0xF0] ++
  [0xF0, 0x10, 0xF0, 0x10, 0xF0] ++ [0x90, 0x90, 0xF0, 0x10, 0x10] ++ [0xF0, 0x80, 0xF0, 0x10, 0xF0] ++
  [0xF0, 0x80, 0xF0, 0x90, 0xF0] ++ [0xF0, 0x10, 0x20, 0x40, 0x40] ++ [0xF0, 0x90, 0xF0, 0x90, 0xF0] ++
  [0xF0, 0x90, 0xF0, 0x10, 0xF0] ++ [0xF0, 0x90, 0xF0, 0x90, 0x90] ++ [0xE0, 0x90, 0xE0, 0x90, 0xE0] ++
  [0xF0, 0x80, 0x80, 0x80, 0xF0] ++ [0xE0, 0x90, 0x90, 0x90, 0xE0] ++ [0xF0, 0x80, 0xF0, 0x80, 0xF0] ++
  [0xF0, 0x80, 0xF0, 0x80, 0x80]

end Sys2Proof.Claims

open Sys2Proof.Claims

/-! ### Encoding (30_encoding.md) -/

/-- R101: the words the source spells out. The terminator 0x0000 decodes as SYS 0x000, which SYS_POLICY =
decode_error makes illegal (R100). -/
def Obligations.SourceRomWordsDecode : Prop :=
  decode 0x6005 = .ok (.ldImm 0x0 0x05) ∧ decode 0x6103 = .ok (.ldImm 0x1 0x03) ∧
    decode 0x8014 = .ok (.addReg 0x0 0x1) ∧ decode 0x0000 = .ok (.sys 0x000) ∧
    illegalWord .decodeError 0x0000 = true ∧ illegalWord .nop 0x0000 = false

/-- R95: a word of every family, written out by hand. -/
def Obligations.OneWordOfEachFamilyDecodes : Prop :=
  decode 0x00E0 = .ok .cls ∧ decode 0x00EE = .ok .ret ∧ decode 0x1234 = .ok (.jp 0x234) ∧
    decode 0x2300 = .ok (.call 0x300) ∧ decode 0x3342 = .ok (.seImm 0x3 0x42) ∧
    decode 0x4342 = .ok (.sneImm 0x3 0x42) ∧ decode 0x7203 = .ok (.addImm 0x2 0x03) ∧
    decode 0x6103 = .ok (.ldImm 0x1 0x03) ∧ decode 0x8014 = .ok (.addReg 0x0 0x1) ∧
    decode 0x5120 = .ok (.seReg 0x1 0x2) ∧ decode 0x9120 = .ok (.sneReg 0x1 0x2) ∧
    decode 0xA2F0 = .ok (.ldI 0x2F0) ∧ decode 0xB300 = .ok (.jpV0 0x300) ∧
    decode 0xC00F = .ok (.rnd 0x0 0x0F) ∧ decode 0xD015 = .ok (.drw 0x0 0x1 0x5) ∧
    decode 0xE59E = .ok (.skp 0x5) ∧ decode 0xF265 = .ok (.ldVxMem 0x2)

/-- R90, R95, R103: decoding the word of a well-formed instruction gives it back, all operands included. -/
def Obligations.DecodeOfEncodeIsTheInstruction : Prop :=
  ∀ i : Instr, i.wellFormed = true → decode (encode i) = .ok i

/-- R102, R105: a word that decodes is exactly the word of the instruction it decodes to, and that instruction is
well-formed: no bit of the word is dropped, and no word is two instructions. -/
def Obligations.EncodeOfDecodeIsTheWord : Prop :=
  ∀ (w : Word) (i : Instr), decode w = .ok i → encode i = w ∧ i.wellFormed = true

/-- R95, R103: selection by match and mask. A word decodes to a row's instruction only if it matches the row, and any
word that matches a row decodes. -/
def Obligations.DecodeSelectsByMatchAndMask : Prop :=
  (∀ (w : Word) (i : Instr), decode w = .ok i → w &&& (opcodeRow i).2 = (opcodeRow i).1) ∧
    ∀ (w : Word) (i : Instr), w &&& (opcodeRow i).2 = (opcodeRow i).1 → ∃ j, decode w = .ok j

/-- R96: the illegal words, family by family. -/
def Obligations.IllegalWordsByFamily : Prop :=
  ∀ (p : SysPolicy) (w : Word), illegalWord p w = true ↔
    ((w.extractLsb' 12 4 = 0x5 ∧ w.extractLsb' 0 4 ≠ 0x0) ∨
      (w.extractLsb' 12 4 = 0x8 ∧ w.extractLsb' 0 4 ∈ ([0x8, 0x9, 0xA, 0xB, 0xC, 0xD, 0xF] : List (BitVec 4))) ∨
      (w.extractLsb' 12 4 = 0x9 ∧ w.extractLsb' 0 4 ≠ 0x0) ∨
      (w.extractLsb' 12 4 = 0xE ∧ w.extractLsb' 0 8 ∉ ([0x9E, 0xA1] : List (BitVec 8))) ∨
      (w.extractLsb' 12 4 = 0xF ∧
        w.extractLsb' 0 8 ∉ ([0x07, 0x0A, 0x15, 0x18, 0x1E, 0x29, 0x33, 0x55, 0x65] : List (BitVec 8))) ∨
      (p = .decodeError ∧ w.extractLsb' 12 4 = 0x0 ∧ w.extractLsb' 0 12 ∉ ([0x0E0, 0x0EE] : List (BitVec 12))))

/-- R272: DecodeError is what a step answers exactly when the fetched word is illegal, and it carries the word and
pc0. -/
def Obligations.DecodeErrorExactlyOnIllegalWords : Prop :=
  ∀ s : State, s.pc.toNat ≤ 0xFFE →
    ((illegalWord s.cfg.sysPolicy (wordAtPc s) = true → step s = .fault (.decodeError s.pc (wordAtPc s))) ∧
      ∀ p w, step s = .fault (.decodeError p w) → illegalWord s.cfg.sysPolicy (wordAtPc s) = true)

/-! ### Fetch, step and errors (40_fetch_decode_dispatch.md, 60_exceptions.md) -/

/-- R122, R62: both fetch addresses are checked, the lowest bad one is reported with word 0, and a fetch in range reads
two bytes big-endian. -/
def Obligations.FetchChecksAndCombinesBigEndian : Prop :=
  ∀ s : State,
    (4095 < s.pc.toNat → step s = .fault (.addressOutOfRange s.pc 0 s.pc.toNat .ram)) ∧
    (s.pc.toNat = 4095 → step s = .fault (.addressOutOfRange s.pc 0 4096 .ram)) ∧
    (s.pc.toNat < 4095 → ∃ w : Word, s.fetch = .ok w ∧
      w.toNat = 256 * (s.readByte s.pc.toNat).toNat + (s.readByte (s.pc.toNat + 1)).toNat)

/-- R120, R123, R132: when the word at pc decodes, the step is exec of that instruction at that state. The increment of
pc (R124) is inside exec, whose state is the one before the step. -/
def Obligations.StepRunsTheDecodedInstruction : Prop :=
  ∀ (s : State) (i : Instr), s.pc.toNat ≤ 0xFFE → decode (wordAtPc s) = .ok i → step s = exec i s

/-- R72, R306: a word the host writes at pc, at an odd address as at an even one, is the instruction the next step runs,
whatever lay there before. -/
def Obligations.WordWrittenAtPcIsTheNextInstruction : Prop :=
  ∀ (s : State) (a : Addr12) (w : Word) (i : Instr), a ≠ 0xFFF → s.pc.toNat = a.toNat → decode w = .ok i →
    ∃ t, transactAll [.hostMemWrite a (w.extractLsb' 8 8), .hostMemWrite (a + 1) (w.extractLsb' 0 8)] s = t ∧
      t.pc = s.pc ∧ Frame s t noReg [.ram] ∧ wordAtPc t = w ∧ step t = exec i t

/-- R121, R128, R271: a step returns Ok, code 0, with a new state, or an error with a code from 1 to 4 and the state as
it was; never anything else. -/
def Obligations.StepReturnsOkOrAnErrorThatCommitsNothing : Prop :=
  ∀ s : State,
    (∃ t, step s = .next t ∧ transact .step s = (t, .ok) ∧ errCode (transact .step s).2 = some 0) ∨
    (∃ f, step s = .fault f ∧ transact .step s = (s, .err (errRecord f)) ∧
      errCode (transact .step s).2 = some (errRecord f).code ∧ 1 ≤ (errRecord f).code.toNat ∧ (errRecord f).code.toNat ≤ 4)

/-- R271, R276: the record of every error a step returns. That a field not valid for an error is absent is the model's
choice (log 11). -/
def Obligations.ErrorRecordOfEveryFault : Prop :=
  ∀ (s : State) (f : Fault), step s = .fault f →
    (errRecord f).pc = s.pc ∧
    (errRecord f).word = (if s.pc.toNat ≤ 0xFFE then wordAtPc s else 0) ∧
    (∀ p w, f = .decodeError p w → (errRecord f).code = 1 ∧ (errRecord f).addr = none ∧
      (errRecord f).space = none ∧ (errRecord f).sp = none) ∧
    (∀ p w sp, f = .stackOverflow p w sp → (errRecord f).code = 2 ∧ (errRecord f).addr = none ∧
      (errRecord f).space = none ∧ (errRecord f).sp = some 16 ∧ s.sp.val = 16) ∧
    (∀ p w sp, f = .stackUnderflow p w sp → (errRecord f).code = 3 ∧ (errRecord f).addr = none ∧
      (errRecord f).space = none ∧ (errRecord f).sp = some 0 ∧ s.sp.val = 0) ∧
    (∀ p w a sp, f = .addressOutOfRange p w a sp →
      (errRecord f).code = 4 ∧ (errRecord f).sp = none ∧
      (∃ b, (errRecord f).addr = some b ∧ b.toNat = a) ∧
      ((sp = .ram ∧ (errRecord f).space = some 0 ∧ 4095 < a) ∨
        (sp = .keys ∧ (errRecord f).space = some 1 ∧ 15 < a ∧ a ≤ 255)))

/-! ### Family 0, jumps, calls and returns (41_flow_and_system.md) -/

/-- R140: SYS raises DecodeError under decode_error and only moves pc under nop. That exec raises it, not the decoder,
is the model's arrangement (log 4). R140 leaves out NNN = 0x0E0 and 0x0EE: what exec does with those two terms, which no
word decodes to, is the model's choice (log 17). -/
def Obligations.SysFollowsThePolicy : Prop :=
  ∀ (s : State) (nnn : Addr12),
    (nnn ≠ 0x0E0 → nnn ≠ 0x0EE → decode (0x0#4 ++ nnn) = .ok (.sys nnn)) ∧
    (s.cfg.sysPolicy = .decodeError → exec (.sys nnn) s = .fault (.decodeError s.pc (0x0#4 ++ nnn))) ∧
    (s.cfg.sysPolicy = .nop → movesPcTo (.sys nnn) s (s.pc + 2))

/-- R141: clear screen. -/
def Obligations.ClearScreenClearsEveryCell : Prop :=
  decode 0x00E0 = .ok .cls ∧
    ∀ s : State, ∃ t, exec .cls s = .next t ∧ (∀ x y, t.fb.cell x y = false) ∧ t.pc = s.pc + 2 ∧
      Frame s t noReg [.fb]

/-- R142: return. The frame popped is the one below SP, its slot keeps its value, and a popped address above 0xFFE makes
the next fetch raise. -/
def Obligations.ReturnPopsTheStack : Prop :=
  decode 0x00EE = .ok .ret ∧
    ∀ s : State,
      (s.sp.val = 0 → exec .ret s = .fault (.stackUnderflow s.pc 0x00EE 0)) ∧
      ∀ k : Fin 16, s.sp.val = k.val + 1 →
        ∃ t, exec .ret s = .next t ∧ t.pc = s.stack[k] ∧ t.sp.val = k.val ∧ t.stack = s.stack ∧
          Frame s t noReg [.stack] ∧
          (0xFFE < (s.stack[k]).toNat →
            step t = .fault (.addressOutOfRange (s.stack[k]) 0 (max (s.stack[k]).toNat 4096) .ram))

/-- R143: jump. A jump to itself leaves the state as it was, and a jump to 0xFFF makes the next fetch raise. -/
def Obligations.JumpGoesToTheTarget : Prop :=
  ∀ (s : State) (nnn : Addr12),
    decode (0x1#4 ++ nnn) = .ok (.jp nnn) ∧
    ∃ t, exec (.jp nnn) s = .next t ∧ t.pc.toNat = nnn.toNat ∧ Frame s t noReg [] ∧
      (s.pc.toNat = nnn.toNat → t = s) ∧
      (nnn = 0xFFF → step t = .fault (.addressOutOfRange 0xFFF 0 0x1000 .ram))

/-- R144: call. It pushes pc0 + 2 into the slot SP names, and raises StackOverflow when 16 frames are active. -/
def Obligations.CallPushesTheNextAddress : Prop :=
  ∀ (s : State) (nnn : Addr12),
    decode (0x2#4 ++ nnn) = .ok (.call nnn) ∧
    (s.sp.val = 16 → exec (.call nnn) s = .fault (.stackOverflow s.pc (0x2#4 ++ nnn) 16)) ∧
    ∀ k : Fin 16, s.sp.val = k.val →
      ∃ t, exec (.call nnn) s = .next t ∧ t.pc.toNat = nnn.toNat ∧ t.sp.val = k.val + 1 ∧
        t.stack[k] = s.pc + 2 ∧ (s.pc.toNat ≤ 0xFFE → (t.stack[k]).toNat ≤ 0x1000) ∧
        (∀ j : Fin 16, j ≠ k → t.stack[j] = s.stack[j]) ∧ Frame s t noReg [.stack]

/-- R145: jump with offset. The sum is not reduced to 12 bits. -/
def Obligations.JumpV0AddsWithoutWrapping : Prop :=
  ∀ (s : State) (nnn : Addr12),
    decode (0xB#4 ++ nnn) = .ok (.jpV0 nnn) ∧
    ∃ t, exec (.jpV0 nnn) s = .next t ∧ t.pc.toNat = nnn.toNat + (s.reg 0x0).toNat ∧ Frame s t noReg [] ∧
      (0xFFE < t.pc.toNat → step t = .fault (.addressOutOfRange t.pc 0 (max t.pc.toNat 4096) .ram))

/-- R142, R144: a return takes back the address its call pushed, from any state in which the stack is as the call left
it, whatever the callee did to the rest. -/
def Obligations.ReturnAfterCallGoesToTheNextInstruction : Prop :=
  ∀ (s t u : State) (nnn : Addr12), exec (.call nnn) s = .next t → u.stack = t.stack → u.sp = t.sp →
    ∃ r, exec .ret u = .next r ∧ r.pc = s.pc + 2 ∧ r.sp = s.sp

/-! ### Skips (42_skips.md) -/

/-- R161, R162: skip on equality with an immediate, and its exact negation. -/
def Obligations.SkipsCompareWithTheImmediate : Prop :=
  ∀ (s : State) (x : Nibble) (kk : Byte),
    decode (0x3#4 ++ x ++ kk) = .ok (.seImm x kk) ∧ decode (0x4#4 ++ x ++ kk) = .ok (.sneImm x kk) ∧
    (s.reg x = kk → movesPcTo (.seImm x kk) s (s.pc + 4) ∧ movesPcTo (.sneImm x kk) s (s.pc + 2)) ∧
    (s.reg x ≠ kk → movesPcTo (.seImm x kk) s (s.pc + 2) ∧ movesPcTo (.sneImm x kk) s (s.pc + 4))

/-- R163, R164: skip on equality of two registers, and its exact negation; X = Y always and never skips. -/
def Obligations.SkipsCompareTwoRegisters : Prop :=
  ∀ (s : State) (x y : Nibble),
    decode (0x5#4 ++ x ++ y ++ 0x0#4) = .ok (.seReg x y) ∧ decode (0x9#4 ++ x ++ y ++ 0x0#4) = .ok (.sneReg x y) ∧
    (∀ n : Nibble, n ≠ 0x0 → decode (0x5#4 ++ x ++ y ++ n) = .error (.noRow (0x5#4 ++ x ++ y ++ n)) ∧
      decode (0x9#4 ++ x ++ y ++ n) = .error (.noRow (0x9#4 ++ x ++ y ++ n))) ∧
    (s.reg x = s.reg y → movesPcTo (.seReg x y) s (s.pc + 4) ∧ movesPcTo (.sneReg x y) s (s.pc + 2)) ∧
    (s.reg x ≠ s.reg y → movesPcTo (.seReg x y) s (s.pc + 2) ∧ movesPcTo (.sneReg x y) s (s.pc + 4))

/-- R165, R166, R167: skip on the key VX names; an index above 15 raises with space KEYS or is reduced to its low
nibble, by KEY_INDEX_MODE. -/
def Obligations.SkipsTestTheKey : Prop :=
  ∀ (s : State) (x : Nibble),
    decode (0xE#4 ++ x ++ 0x9E#8) = .ok (.skp x) ∧ decode (0xE#4 ++ x ++ 0xA1#8) = .ok (.sknp x) ∧
    (15 < (s.reg x).toNat → s.cfg.keyIndexMode = .fault →
      exec (.skp x) s = .fault (.addressOutOfRange s.pc (0xE#4 ++ x ++ 0x9E#8) (s.reg x).toNat .keys) ∧
      exec (.sknp x) s = .fault (.addressOutOfRange s.pc (0xE#4 ++ x ++ 0xA1#8) (s.reg x).toNat .keys)) ∧
    ((s.reg x).toNat ≤ 15 ∨ s.cfg.keyIndexMode = .lowNibble →
      (s.keys.getLsbD ((s.reg x).toNat % 16) = true →
        movesPcTo (.skp x) s (s.pc + 4) ∧ movesPcTo (.sknp x) s (s.pc + 2)) ∧
      (s.keys.getLsbD ((s.reg x).toNat % 16) = false →
        movesPcTo (.skp x) s (s.pc + 2) ∧ movesPcTo (.sknp x) s (s.pc + 4)))

/-! ### ALU, loads and random (43_alu.md) -/

/-- R181, R182: load and add immediate; VF is no flag here. -/
def Obligations.ImmediateFormsWriteNoFlag : Prop :=
  ∀ (s : State) (x : Nibble) (kk : Byte),
    decode (0x6#4 ++ x ++ kk) = .ok (.ldImm x kk) ∧ decode (0x7#4 ++ x ++ kk) = .ok (.addImm x kk) ∧
    (∃ t, exec (.ldImm x kk) s = .next t ∧ t.pc = s.pc + 2 ∧ t.reg x = kk ∧ Frame s t (onlyReg x) []) ∧
    ∃ t, exec (.addImm x kk) s = .next t ∧ t.pc = s.pc + 2 ∧
      (t.reg x).toNat = ((s.reg x).toNat + kk.toNat) % 256 ∧ Frame s t (onlyReg x) []

/-- R183, R184, R185, R186: copy, OR, AND and XOR, bit by bit; VF is no flag here. -/
def Obligations.CopyAndLogicWriteNoFlag : Prop :=
  ∀ (s : State) (x y : Nibble),
    (decode (0x8#4 ++ x ++ y ++ 0x0#4) = .ok (.ldReg x y) ∧ decode (0x8#4 ++ x ++ y ++ 0x1#4) = .ok (.orReg x y) ∧
      decode (0x8#4 ++ x ++ y ++ 0x2#4) = .ok (.andReg x y) ∧
      decode (0x8#4 ++ x ++ y ++ 0x3#4) = .ok (.xorReg x y)) ∧
    (∃ t, exec (.ldReg x y) s = .next t ∧ t.pc = s.pc + 2 ∧ t.reg x = s.reg y ∧ Frame s t (onlyReg x) []) ∧
    (∃ t, exec (.orReg x y) s = .next t ∧ t.pc = s.pc + 2 ∧ Frame s t (onlyReg x) [] ∧
      ∀ k, (t.reg x).getLsbD k = ((s.reg x).getLsbD k || (s.reg y).getLsbD k)) ∧
    (∃ t, exec (.andReg x y) s = .next t ∧ t.pc = s.pc + 2 ∧ Frame s t (onlyReg x) [] ∧
      ∀ k, (t.reg x).getLsbD k = ((s.reg x).getLsbD k && (s.reg y).getLsbD k)) ∧
    ∃ t, exec (.xorReg x y) s = .next t ∧ t.pc = s.pc + 2 ∧ Frame s t (onlyReg x) [] ∧
      ∀ k, (t.reg x).getLsbD k = ((s.reg x).getLsbD k ^^ (s.reg y).getLsbD k)

/-- R187, R193: add. The sum mod 256 goes to VX, then the carry to VF, which wins when X = F. -/
def Obligations.AddWritesTheSumThenTheCarry : Prop :=
  ∀ (s : State) (x y : Nibble),
    decode (0x8#4 ++ x ++ y ++ 0x4#4) = .ok (.addReg x y) ∧
    ∃ t, exec (.addReg x y) s = .next t ∧ t.pc = s.pc + 2 ∧
      (x ≠ 0xF → (t.reg x).toNat = ((s.reg x).toNat + (s.reg y).toNat) % 256 ∧
        256 * (t.reg 0xF).toNat + (t.reg x).toNat = (s.reg x).toNat + (s.reg y).toNat) ∧
      (t.reg 0xF).toNat = (if 255 < (s.reg x).toNat + (s.reg y).toNat then 1 else 0) ∧
      Frame s t (regAndFlag x) []

/-- R188, R190: the two subtractions. VF is 1 when there is no borrow, equality included, and wins when X = F. -/
def Obligations.SubtractWritesTheDifferenceThenNoBorrow : Prop :=
  ∀ (s : State) (x y : Nibble),
    (decode (0x8#4 ++ x ++ y ++ 0x5#4) = .ok (.subReg x y) ∧
      decode (0x8#4 ++ x ++ y ++ 0x7#4) = .ok (.subnReg x y)) ∧
    (∃ t, exec (.subReg x y) s = .next t ∧ t.pc = s.pc + 2 ∧
      (x ≠ 0xF → (t.reg x).toNat = ((s.reg x).toNat + 256 - (s.reg y).toNat) % 256) ∧
      (t.reg 0xF).toNat = (if (s.reg y).toNat ≤ (s.reg x).toNat then 1 else 0) ∧ Frame s t (regAndFlag x) []) ∧
    ∃ t, exec (.subnReg x y) s = .next t ∧ t.pc = s.pc + 2 ∧
      (x ≠ 0xF → (t.reg x).toNat = ((s.reg y).toNat + 256 - (s.reg x).toNat) % 256) ∧
      (t.reg 0xF).toNat = (if (s.reg x).toNat ≤ (s.reg y).toNat then 1 else 0) ∧ Frame s t (regAndFlag x) []

/-- R189, R191: the two shifts by one, from VX or VY by QUIRK_SHIFT_SOURCE. VF is the bit shifted out and wins when
X = F. -/
def Obligations.ShiftWritesTheResultThenTheBitShiftedOut : Prop :=
  ∀ (s : State) (x y : Nibble) (src : Byte),
    (s.cfg.shiftSource = .vx → src = s.reg x) → (s.cfg.shiftSource = .vy → src = s.reg y) →
    (decode (0x8#4 ++ x ++ y ++ 0x6#4) = .ok (.shrReg x y) ∧
      decode (0x8#4 ++ x ++ y ++ 0xE#4) = .ok (.shlReg x y)) ∧
    (∃ t, exec (.shrReg x y) s = .next t ∧ t.pc = s.pc + 2 ∧
      (x ≠ 0xF → (t.reg x).toNat = src.toNat / 2) ∧ (t.reg 0xF).toNat = src.toNat % 2 ∧
      Frame s t (regAndFlag x) []) ∧
    ∃ t, exec (.shlReg x y) s = .next t ∧ t.pc = s.pc + 2 ∧
      (x ≠ 0xF → (t.reg x).toNat = 2 * src.toNat % 256) ∧ (t.reg 0xF).toNat = src.toNat / 128 ∧
      Frame s t (regAndFlag x) []

/-- R192: random under a mask. The byte drawn is free: all that is known of the result is that it is the drawn byte
with the bits that are 0 in KK cleared. That it is `Config.rngDraw` of the counter `draws`, and that the counter rises, is
the model's choice (log 3). -/
def Obligations.RandomIsMasked : Prop :=
  ∀ (s : State) (x : Nibble) (kk : Byte),
    decode (0xC#4 ++ x ++ kk) = .ok (.rnd x kk) ∧
    ∃ t, exec (.rnd x kk) s = .next t ∧ t.pc = s.pc + 2 ∧ t.reg x = Config.rngDraw s.draws &&& kk ∧
      t.reg x &&& ~~~kk = 0 ∧ t.draws = s.draws + 1 ∧ Frame s t (onlyReg x) [.draws]

/-! ### Index and memory (44_index_and_memory.md) -/

/-- R210: set index. -/
def Obligations.SetIndexLoadsTheImmediate : Prop :=
  ∀ (s : State) (nnn : Addr12),
    decode (0xA#4 ++ nnn) = .ok (.ldI nnn) ∧
    ∃ t, exec (.ldI nnn) s = .next t ∧ t.pc = s.pc + 2 ∧ t.i.toNat = nnn.toNat ∧ t.i.toNat ≤ 0xFFF ∧
      Frame s t noReg [.index]

/-- R211: add to index, mod 65536, with no flag and no error; a following FX65 with I above 0xFFF raises. -/
def Obligations.AddToIndexWrapsAt16Bits : Prop :=
  ∀ (s : State) (x : Nibble),
    decode (0xF#4 ++ x ++ 0x1E#8) = .ok (.addIVx x) ∧
    ∃ t, exec (.addIVx x) s = .next t ∧ t.pc = s.pc + 2 ∧
      t.i.toNat = (s.i.toNat + (s.reg x).toNat) % 65536 ∧ Frame s t noReg [.index] ∧
      ∀ z : Nibble, 0xFFF < t.i.toNat →
        exec (.ldVxMem z) t = .fault (.addressOutOfRange t.pc (0xF#4 ++ z ++ 0x65#8) t.i.toNat .ram)

/-- R212: the address of a glyph, by FONT_ADDR_MODE; I ends at 0xFFF or below. -/
def Obligations.FontAddressIsFiveTimesTheDigit : Prop :=
  ∀ (s : State) (x : Nibble),
    decode (0xF#4 ++ x ++ 0x29#8) = .ok (.ldFVx x) ∧
    ∃ t, exec (.ldFVx x) s = .next t ∧ t.pc = s.pc + 2 ∧
      (s.cfg.fontAddrMode = .lowNibble → t.i.toNat = 5 * ((s.reg x).toNat % 16)) ∧
      (s.cfg.fontAddrMode = .fullByte → t.i.toNat = 5 * (s.reg x).toNat) ∧
      t.i.toNat ≤ 0xFFF ∧ Frame s t noReg [.index]

/-- R213, R217: the three digits at I, I + 1 and I + 2, all of them or none. -/
def Obligations.StoreBcdWritesThreeDigits : Prop :=
  ∀ (s : State) (x : Nibble),
    decode (0xF#4 ++ x ++ 0x33#8) = .ok (.ldBVx x) ∧
    (0xFFE ≤ s.i.toNat →
      exec (.ldBVx x) s = .fault (.addressOutOfRange s.pc (0xF#4 ++ x ++ 0x33#8) (max s.i.toNat 4096) .ram)) ∧
    (s.i.toNat < 0xFFE → ∃ t, exec (.ldBVx x) s = .next t ∧ t.pc = s.pc + 2 ∧
      (t.readByte s.i.toNat).toNat = (s.reg x).toNat / 100 ∧
      (t.readByte (s.i.toNat + 1)).toNat = (s.reg x).toNat / 10 % 10 ∧
      (t.readByte (s.i.toNat + 2)).toNat = (s.reg x).toNat % 10 ∧
      (∀ a, a < s.i.toNat ∨ s.i.toNat + 2 < a → t.readByte a = s.readByte a) ∧ Frame s t noReg [.ram])

/-- R214, R217: V0 to VX stored at I to I + X, all of them or none; I by QUIRK_LOADSTORE_INC_I. -/
def Obligations.RegisterDumpStoresTheBlock : Prop :=
  ∀ (s : State) (x : Nibble),
    decode (0xF#4 ++ x ++ 0x55#8) = .ok (.ldMemVx x) ∧
    (4095 < s.i.toNat + x.toNat →
      exec (.ldMemVx x) s = .fault (.addressOutOfRange s.pc (0xF#4 ++ x ++ 0x55#8) (max s.i.toNat 4096) .ram)) ∧
    (s.i.toNat + x.toNat ≤ 4095 → ∃ t, exec (.ldMemVx x) s = .next t ∧ t.pc = s.pc + 2 ∧
      (∀ r : Nibble, r.toNat ≤ x.toNat → t.readByte (s.i.toNat + r.toNat) = s.reg r) ∧
      (∀ a, a < s.i.toNat ∨ s.i.toNat + x.toNat < a → t.readByte a = s.readByte a) ∧
      (s.cfg.loadStoreIncI = false → t.i = s.i) ∧
      (s.cfg.loadStoreIncI = true → t.i.toNat = (s.i.toNat + x.toNat + 1) % 65536) ∧
      Frame s t noReg [.ram, .index])

/-- R215, R217: V0 to VX loaded from I to I + X, all of them or none; I by QUIRK_LOADSTORE_INC_I. -/
def Obligations.RegisterLoadFillsTheBlock : Prop :=
  ∀ (s : State) (x : Nibble),
    decode (0xF#4 ++ x ++ 0x65#8) = .ok (.ldVxMem x) ∧
    (4095 < s.i.toNat + x.toNat →
      exec (.ldVxMem x) s = .fault (.addressOutOfRange s.pc (0xF#4 ++ x ++ 0x65#8) (max s.i.toNat 4096) .ram)) ∧
    (s.i.toNat + x.toNat ≤ 4095 → ∃ t, exec (.ldVxMem x) s = .next t ∧ t.pc = s.pc + 2 ∧
      (∀ r : Nibble, r.toNat ≤ x.toNat → t.reg r = s.readByte (s.i.toNat + r.toNat)) ∧
      (s.cfg.loadStoreIncI = false → t.i = s.i) ∧
      (s.cfg.loadStoreIncI = true → t.i.toNat = (s.i.toNat + x.toNat + 1) % 65536) ∧
      Frame s t (fun r => r.toNat ≤ x.toNat) [.index])

/-! ### Sprite (45_sprite.md) -/

/-- R230, R231, R232, R233: draw sprite. Every cell is the old one inverted exactly where a set pixel lands, and VF is 1
exactly when a set pixel landed on a cell that was set before the draw. -/
def Obligations.DrawXorsTheSpriteAndReportsCollision : Prop :=
  ∀ (s : State) (x y n : Nibble),
    decode (0xD#4 ++ x ++ y ++ n) = .ok (.drw x y n) ∧
    (n ≠ 0 → 4095 < s.i.toNat + n.toNat - 1 →
      exec (.drw x y n) s = .fault (.addressOutOfRange s.pc (0xD#4 ++ x ++ y ++ n) (max s.i.toNat 4096) .ram)) ∧
    (n = 0 ∨ s.i.toNat + n.toNat - 1 ≤ 4095 → ∃ t, exec (.drw x y n) s = .next t ∧ t.pc = s.pc + 2 ∧
      (∀ cx cy, spriteHits s x y n cx cy → t.fb.cell cx cy = !s.fb.cell cx cy) ∧
      (∀ cx cy, ¬ spriteHits s x y n cx cy → t.fb.cell cx cy = s.fb.cell cx cy) ∧
      ((∃ cx cy, spriteHits s x y n cx cy ∧ s.fb.cell cx cy = true) → t.reg 0xF = 1) ∧
      ((¬ ∃ cx cy, spriteHits s x y n cx cy ∧ s.fb.cell cx cy = true) → t.reg 0xF = 0) ∧
      Frame s t (onlyReg 0xF) [.fb])

/-- R234: N = 0 draws nothing, clears VF and raises nothing, whatever I is. -/
def Obligations.DrawOfNoRowsClearsTheFlag : Prop :=
  ∀ (s : State) (x y : Nibble), ∃ t, exec (.drw x y 0) s = .next t ∧ t.pc = s.pc + 2 ∧ t.reg 0xF = 0 ∧
    Frame s t (onlyReg 0xF) []

/-- R237: the same sprite drawn twice at the same place restores the framebuffer, and the second draw's VF is 1 exactly
when a set pixel fell on a cell that was 0 before the first draw; on a clear screen, when the sprite has a set bit. `u`
is the state at the second draw: only what R237 names need be as it was. -/
def Obligations.DrawTwiceRestoresTheFramebuffer : Prop :=
  ∀ (s t u : State) (x y n : Nibble), exec (.drw x y n) s = .next t →
    u.fb = t.fb → u.reg x = s.reg x → u.reg y = s.reg y → u.i = s.i → (∀ a, u.readByte a = s.readByte a) →
    ∃ r, exec (.drw x y n) u = .next r ∧ (∀ cx cy, r.fb.cell cx cy = s.fb.cell cx cy) ∧
      (r.reg 0xF = 1 ↔ ∃ cx cy, spriteHits s x y n cx cy ∧ s.fb.cell cx cy = false) ∧
      ((∀ cx cy, s.fb.cell cx cy = false) →
        (∃ q c : Nat, q < n.toNat ∧ c < 8 ∧ (s.readByte (s.i.toNat + q)).getLsbD c = true) → r.reg 0xF = 1)

/-! ### Timers and keys (46_timers_and_keys.md) -/

/-- R250, R251, R252: the timer transfers; sound_active follows ST. -/
def Obligations.TimerTransfersCopyTheByte : Prop :=
  ∀ (s : State) (x : Nibble),
    (decode (0xF#4 ++ x ++ 0x07#8) = .ok (.ldVxDt x) ∧ decode (0xF#4 ++ x ++ 0x15#8) = .ok (.ldDtVx x) ∧
      decode (0xF#4 ++ x ++ 0x18#8) = .ok (.ldStVx x)) ∧
    (∃ t, exec (.ldVxDt x) s = .next t ∧ t.pc = s.pc + 2 ∧ t.reg x = s.dt ∧ Frame s t (onlyReg x) []) ∧
    (∃ t, exec (.ldDtVx x) s = .next t ∧ t.pc = s.pc + 2 ∧ t.dt = s.reg x ∧ Frame s t noReg [.dt]) ∧
    ∃ t, exec (.ldStVx x) s = .next t ∧ t.pc = s.pc + 2 ∧ t.st = s.reg x ∧
      (soundActive t = true ↔ 0 < (s.reg x).toNat) ∧ Frame s t noReg [.st]

/-- R253, R254: wait for a key, by level: with no key pressed the step completes and changes nothing at all; else VX takes
the lowest-numbered pressed key. -/
def Obligations.WaitForKeyTakesTheLowestPressedKey : Prop :=
  ∀ (s : State) (x : Nibble),
    decode (0xF#4 ++ x ++ 0x0A#8) = .ok (.ldVxK x) ∧
    ((∀ k < 16, s.keys.getLsbD k = false) → exec (.ldVxK x) s = .next s) ∧
    ∀ k < 16, s.keys.getLsbD k = true → (∀ j < k, s.keys.getLsbD j = false) →
      ∃ t, exec (.ldVxK x) s = .next t ∧ t.pc = s.pc + 2 ∧ (t.reg x).toNat = k ∧ Frame s t (onlyReg x) []

/-- R255, R46: while the host presses no key, nothing ends the wait: after any number of steps, ticks and reads the pc
still rests on the FX0A, and no register, no RAM byte and no cell has changed. -/
def Obligations.KeyWaitLastsUntilTheHostPressesAKey : Prop :=
  ∀ (s : State) (x : Nibble) (ts : List Transaction), s.pc.toNat ≤ 0xFFE → wordAtPc s = 0xF#4 ++ x ++ 0x0A#8 →
    s.keys = 0 → (∀ t ∈ ts, waitsOrLooks t) →
    (transactAll ts s).pc = s.pc ∧ Frame s (transactAll ts s) noReg [.dt, .st]

/-! ### Reset and host ports (70_reset_and_hazards.md, 10_state.md, 60_exceptions.md) -/

/-- R301: the reset state, every field. The 80 font bytes are those of R33 (PRESUMED by the spec, log 9). The two fields of the model's own: the straps are the defaults of R9 (log 2);
`draws` is not spoken of (log 3). -/
def Obligations.ResetValues : Prop :=
  (∀ r, State.reset.reg r = 0) ∧ State.reset.i = 0 ∧ State.reset.pc = 0x200 ∧ State.reset.sp.val = 0 ∧
    (∀ k : Fin 16, State.reset.stack[k] = 0) ∧ State.reset.dt = 0 ∧ State.reset.st = 0 ∧
    (∀ k < 16, State.reset.keys.getLsbD k = false) ∧
    (List.range 80).map State.reset.readByte = fontOfR33 ∧
    (∀ g r : Nat, ∀ (hg : g < 16) (hr : r < 5), State.reset.readByte (5 * g + r) = Config.defaultFont[g][r]) ∧
    (∀ a, 0x050 ≤ a → State.reset.readByte a = 0) ∧ (∀ x y, State.reset.fb.cell x y = false) ∧
    soundActive State.reset = false ∧ State.reset.cfg = Config.default

/-- R300, R301: host_reset puts every piece of state to its reset value from any state, under any straps it samples, the
loaded program gone and the given font table in place. -/
def Obligations.HostResetReinitialisesEverything : Prop :=
  ∀ (straps : Config) (s : State),
    (∀ r, (hostReset straps s).reg r = 0) ∧ (hostReset straps s).i = 0 ∧ (hostReset straps s).pc = 0x200 ∧
    (hostReset straps s).sp.val = 0 ∧ (∀ k : Fin 16, (hostReset straps s).stack[k] = 0) ∧
    (hostReset straps s).dt = 0 ∧ (hostReset straps s).st = 0 ∧ (hostReset straps s).keys = 0 ∧
    (∀ g r : Nat, ∀ (hg : g < 16) (hr : r < 5),
      (hostReset straps s).readByte (5 * g + r) = straps.fontTable[g][r]) ∧
    (∀ a, 0x050 ≤ a → (hostReset straps s).readByte a = 0) ∧
    (∀ x y, (hostReset straps s).fb.cell x y = false) ∧ soundActive (hostReset straps s) = false ∧
    (hostReset straps s).cfg = straps

/-- R36: the host RAM port writes one byte and reads one byte, at any of the 4096 addresses. -/
def Obligations.HostRamPortWritesAndReadsOneByte : Prop :=
  ∀ (s : State) (a : Addr12) (b : Byte),
    hostMemRead a (hostMemWrite a b s) = b ∧
    (∀ c : Addr12, c ≠ a → hostMemRead c (hostMemWrite a b s) = hostMemRead c s) ∧
    (hostMemWrite a b s).pc = s.pc ∧ Frame s (hostMemWrite a b s) noReg [.ram] ∧
    hostMemRead a s = s.readByte a.toNat ∧ transact (.hostMemRead a) s = (s, .byte (s.readByte a.toNat))

/-- R40, R38, R279, R289: the key port sets the 16 keys, the framebuffer port reads a cell, host_skip moves pc by 2 mod
65536, host_peek returns V, I, pc, SP, S, DT, ST and K; each leaves everything else. -/
def Obligations.KeyFramebufferAndSkipPorts : Prop :=
  ∀ s : State,
    (∀ k16 : BitVec 16, ∃ t, transact (.hostSetKeys k16) s = (t, .done) ∧
      (∀ k : Fin 16, t.key k = k16.getLsbD k.val) ∧ t.pc = s.pc ∧ Frame s { t with keys := s.keys } noReg []) ∧
    (∀ x y, transact (.hostFbRead x y) s = (s, .cell (s.fb.cell x y))) ∧
    (∃ t, transact .hostSkip s = (t, .done) ∧ t.pc.toNat = (s.pc.toNat + 2) % 65536 ∧ Frame s t noReg []) ∧
    ∃ p, transact .hostPeek s = (s, .peek p) ∧ (∀ r : Nibble, p.v[r.toNat] = s.reg r) ∧ p.i = s.i ∧ p.pc = s.pc ∧
      p.sp = s.sp ∧ (∀ k : Fin 16, p.stack[k] = s.stack[k]) ∧ p.dt = s.dt ∧ p.st = s.st ∧
      ∀ k : Fin 16, p.keys.getLsbD k.val = s.key k

/-- R44, R45: one tick takes both timers one down, never below 0, and nothing else; sound_active is ST > 0. -/
def Obligations.TickCountsBothTimersDown : Prop :=
  ∀ s : State,
    (hostTick s).dt.toNat = s.dt.toNat - 1 ∧ (hostTick s).st.toNat = s.st.toNat - 1 ∧ (hostTick s).pc = s.pc ∧
    Frame s (hostTick s) noReg [.dt, .st] ∧ (soundActive s = true ↔ 0 < s.st.toNat)

/-- R69, R303: an image of at most 3584 bytes is loaded byte i at 0x200 + i, and nothing else changes; a longer one
cannot be loaded, which the model says by `none` (log 12). -/
def Obligations.RomIsLoadedVerbatimAt0x200 : Prop :=
  ∀ (image : List Byte) (s : State),
    (3584 < image.length → loadRom image = none) ∧
    (image.length ≤ 3584 → ∃ ts, loadRom image = some ts ∧
      (∀ k, ∀ h : k < image.length, (transactAll ts s).readByte (0x200 + k) = image[k]) ∧
      (∀ a, a < 0x200 ∨ 0x200 + image.length ≤ a → (transactAll ts s).readByte a = s.readByte a) ∧
      (transactAll ts s).pc = s.pc ∧ Frame s (transactAll ts s) noReg [.ram])

/-! ### Whole-machine rules -/

/-- The reset state (R301) meets the invariant. The canonical form of RAM is the model's own (log 8). -/
def Obligations.ResetMeetsTheInvariant : Prop := State.reset.Inv

/-- R27, R142, R144: from every state that meets the invariant, a step gives a state that meets it: RAM stays canonical,
every active frame is at most 0x1000, and pc is at most 0x10FE, so that it never wraps at 16 bits. The canonical form of
RAM is the model's own (log 8). -/
def Obligations.StepKeepsTheInvariant : Prop :=
  ∀ s t : State, s.Inv → step s = .next t → t.Inv

/-- R70, R71: whatever the host does between steps, in any order and under any straps, RAM is canonical and every active
frame is at most 0x1000. The canonical form of RAM is the model's own (log 8). -/
def Obligations.EveryReachableStateIsCanonical : Prop :=
  ∀ s : State, s.Reachable → s.memWf ∧ s.framesBounded

/-- R30, R37: only CLS and DRW write the framebuffer, and only RET and CALL the stack. -/
def Obligations.OnlyNamedInstructionsWriteFramebufferAndStack : Prop :=
  ∀ (i : Instr) (s t : State), exec i s = .next t →
    (i ≠ .cls → (∀ x y n, i ≠ .drw x y n) → ∀ cx cy, t.fb.cell cx cy = s.fb.cell cx cy) ∧
    (i ≠ .ret → (∀ nnn, i ≠ .call nnn) → t.stack = s.stack ∧ t.sp = s.sp)

/-- R26, R32, R65: only FX33 and FX55 write RAM; only ANNN, FX1E and FX29 write I, and FX55 and FX65 under
QUIRK_LOADSTORE_INC_I. -/
def Obligations.OnlyNamedInstructionsWriteRamAndIndex : Prop :=
  ∀ (i : Instr) (s t : State), exec i s = .next t →
    ((∀ x, i ≠ .ldBVx x) → (∀ x, i ≠ .ldMemVx x) → ∀ a, t.readByte a = s.readByte a) ∧
    ((∀ nnn, i ≠ .ldI nnn) → (∀ x, i ≠ .addIVx x) → (∀ x, i ≠ .ldFVx x) →
      (s.cfg.loadStoreIncI = false ∨ ((∀ x, i ≠ .ldMemVx x) ∧ ∀ x, i ≠ .ldVxMem x)) → t.i = s.i)

/-- R42, R43: only FX15 writes DT and only FX18 writes ST, so that no other step changes a timer. -/
def Obligations.OnlyNamedInstructionsWriteTheTimers : Prop :=
  ∀ (i : Instr) (s t : State), exec i s = .next t →
    ((∀ x, i ≠ .ldDtVx x) → t.dt = s.dt) ∧ ((∀ x, i ≠ .ldStVx x) → t.st = s.st)

/-- R22, R23: an instruction writes no register but those R22 and R23 name for it. -/
def Obligations.OnlyNamedRegistersAreWritten : Prop :=
  ∀ (i : Instr) (s t : State) (r : Nibble), exec i s = .next t → ¬ writesReg i r → t.reg r = s.reg r

/-- R31, R39: no step writes a key or a strap. -/
def Obligations.NoStepWritesKeysOrStraps : Prop :=
  ∀ s t : State, step s = .next t → t.keys = s.keys ∧ t.cfg = s.cfg

/-- R42: no instruction reads ST. A step from two states that differ in ST alone answers the same error, or states that
differ in ST at most. For CXKK the draw is the same in both runs, as R131 takes it for equal inputs: the model's draw is
`Config.rngDraw` of the counter, which is equal in the two states (log 3). -/
def Obligations.SoundTimerIsNeverRead : Prop :=
  ∀ (s : State) (b : Byte),
    (∀ t, step s = .next t → ∃ u, step (s.setSt b) = .next u ∧ u.setSt 0 = t.setSt 0) ∧
    ∀ f, step s = .fault f → step (s.setSt b) = .fault f

/-- R70, R142, R144: every transaction, a step or a use of any host port, keeps RAM canonical and every active frame at
most 0x1000, and the reset under any straps meets both. The canonical form of RAM is the model's own (log 8). -/
def Obligations.EveryTransactionKeepsRamAndFrames : Prop :=
  (∀ (tr : Transaction) (s : State), s.memWf → s.framesBounded →
    (transact tr s).1.memWf ∧ (transact tr s).1.framesBounded) ∧
    ∀ straps : Config, (State.resetWith straps).memWf ∧ (State.resetWith straps).framesBounded

/-- R255, R253, R46: a wait that the host never ends is an infinite run. Under any infinite schedule that presses no key,
at every place of the run pc rests on the FX0A and no register, no RAM byte and no cell has changed; every step has
returned Ok, so that the run is without errors; every tick takes both timers one down (R44); and while the host only calls
step, the state is the same for ever. -/
def Obligations.EndlessKeyWaitIsAnInfiniteRun : Prop :=
  ∀ (s : State) (x : Nibble), s.pc.toNat ≤ 0xFFE → wordAtPc s = 0xF#4 ++ x ++ 0x0A#8 → s.keys = 0 →
    (∀ n, stateAt stepForever s n = s ∧ replyAt stepForever s n = .ok) ∧
    ∀ sched : Schedule, (∀ n, waitsOrLooks (sched n)) → safeForever sched s ∧
      ∀ n, (stateAt sched s n).pc = s.pc ∧ wordAtPc (stateAt sched s n) = wordAtPc s ∧
        Frame s (stateAt sched s n) noReg [.dt, .st] ∧
        (sched n = .step → replyAt sched s n = .ok ∧ stateAt sched s (n + 1) = stateAt sched s n) ∧
        (sched n = .hostTick → (stateAt sched s (n + 1)).dt.toNat = (stateAt sched s n).dt.toNat - 1 ∧
          (stateAt sched s (n + 1)).st.toNat = (stateAt sched s n).st.toNat - 1)
end

