-- ==== Sys2Proof/Laws/Decode.lean ====
section
/-!
SUPPORT. The fields of the three word shapes of spec 30_encoding.md R91 read back, and the word put together again
from its fields: what a proof about decoding or encoding needs of bit vectors.
-/

namespace Sys2Proof

@[simp] theorem fieldF_wordNNN (f : Nibble) (nnn : Addr12) : fieldF (wordNNN f nnn) = f := by
  apply BitVec.eq_of_getLsbD_eq; intro k hk
  simp only [fieldF, wordNNN, BitVec.getLsbD_extractLsb', BitVec.getLsbD_append, hk, decide_true, Bool.true_and]
  rw [if_neg (show ¬ 12 + k < 12 by omega), show 12 + k - 12 = k by omega]

@[simp] theorem fieldNNN_wordNNN (f : Nibble) (nnn : Addr12) : fieldNNN (wordNNN f nnn) = nnn := by
  apply BitVec.eq_of_getLsbD_eq; intro k hk
  simp only [fieldNNN, wordNNN, BitVec.getLsbD_extractLsb', BitVec.getLsbD_append, hk, decide_true, Bool.true_and]
  rw [Nat.zero_add, if_pos (show k < 12 by omega)]

@[simp] theorem fieldF_wordXKK (f x : Nibble) (kk : Byte) : fieldF (wordXKK f x kk) = f := by
  apply BitVec.eq_of_getLsbD_eq; intro k hk
  simp only [fieldF, wordXKK, BitVec.getLsbD_extractLsb', BitVec.getLsbD_append, hk, decide_true, Bool.true_and]
  rw [if_neg (show ¬ 12 + k < 8 by omega), if_neg (show ¬ 12 + k - 8 < 4 by omega), show 12 + k - 8 - 4 = k by omega]

@[simp] theorem fieldX_wordXKK (f x : Nibble) (kk : Byte) : fieldX (wordXKK f x kk) = x := by
  apply BitVec.eq_of_getLsbD_eq; intro k hk
  simp only [fieldX, wordXKK, BitVec.getLsbD_extractLsb', BitVec.getLsbD_append, hk, decide_true, Bool.true_and]
  rw [if_neg (show ¬ 8 + k < 8 by omega), if_pos (show 8 + k - 8 < 4 by omega), show 8 + k - 8 = k by omega]

@[simp] theorem fieldKK_wordXKK (f x : Nibble) (kk : Byte) : fieldKK (wordXKK f x kk) = kk := by
  apply BitVec.eq_of_getLsbD_eq; intro k hk
  simp only [fieldKK, wordXKK, BitVec.getLsbD_extractLsb', BitVec.getLsbD_append, hk, decide_true, Bool.true_and]
  rw [Nat.zero_add, if_pos (show k < 8 by omega)]

@[simp] theorem fieldF_wordXYN (f x y n : Nibble) : fieldF (wordXYN f x y n) = f := by
  apply BitVec.eq_of_getLsbD_eq; intro k hk
  simp only [fieldF, wordXYN, BitVec.getLsbD_extractLsb', BitVec.getLsbD_append, hk, decide_true, Bool.true_and]
  rw [if_neg (show ¬ 12 + k < 4 by omega), if_neg (show ¬ 12 + k - 4 < 4 by omega), if_neg (show ¬ 12 + k - 4 - 4 < 4 by omega), show 12 + k - 4 - 4 - 4 = k by omega]

@[simp] theorem fieldX_wordXYN (f x y n : Nibble) : fieldX (wordXYN f x y n) = x := by
  apply BitVec.eq_of_getLsbD_eq; intro k hk
  simp only [fieldX, wordXYN, BitVec.getLsbD_extractLsb', BitVec.getLsbD_append, hk, decide_true, Bool.true_and]
  rw [if_neg (show ¬ 8 + k < 4 by omega), if_neg (show ¬ 8 + k - 4 < 4 by omega), if_pos (show 8 + k - 4 - 4 < 4 by omega), show 8 + k - 4 - 4 = k by omega]

@[simp] theorem fieldY_wordXYN (f x y n : Nibble) : fieldY (wordXYN f x y n) = y := by
  apply BitVec.eq_of_getLsbD_eq; intro k hk
  simp only [fieldY, wordXYN, BitVec.getLsbD_extractLsb', BitVec.getLsbD_append, hk, decide_true, Bool.true_and]
  rw [if_neg (show ¬ 4 + k < 4 by omega), if_pos (show 4 + k - 4 < 4 by omega), show 4 + k - 4 = k by omega]

@[simp] theorem fieldN_wordXYN (f x y n : Nibble) : fieldN (wordXYN f x y n) = n := by
  apply BitVec.eq_of_getLsbD_eq; intro k hk
  simp only [fieldN, wordXYN, BitVec.getLsbD_extractLsb', BitVec.getLsbD_append, hk, decide_true, Bool.true_and]
  rw [Nat.zero_add, if_pos (show k < 4 by omega)]

/-- A word is its F and NNN. -/
theorem wordNNN_fields (w : Word) : wordNNN (fieldF w) (fieldNNN w) = w := by
  apply BitVec.eq_of_getLsbD_eq; intro k hk
  simp only [wordNNN, fieldF, fieldNNN, BitVec.getLsbD_append, BitVec.getLsbD_extractLsb']
  split
  · simp [*]
  · have : k - 12 < 4 := by omega
    have e : 12 + (k - 12) = k := by omega
    simp [this, e]

/-- A word is its F, X and KK. -/
theorem wordXKK_fields (w : Word) : wordXKK (fieldF w) (fieldX w) (fieldKK w) = w := by
  apply BitVec.eq_of_getLsbD_eq; intro k hk
  simp only [wordXKK, fieldF, fieldX, fieldKK, BitVec.getLsbD_append, BitVec.getLsbD_extractLsb']
  split
  · simp [*]
  · split
    · have e : 8 + (k - 8) = k := by omega
      simp [*]
    · have : k - 8 - 4 < 4 := by omega
      have e : 12 + (k - 8 - 4) = k := by omega
      simp [this, e]

/-- A word is its four nibbles. -/
theorem wordXYN_fields (w : Word) : wordXYN (fieldF w) (fieldX w) (fieldY w) (fieldN w) = w := by
  apply BitVec.eq_of_getLsbD_eq; intro k hk
  simp only [wordXYN, fieldF, fieldX, fieldY, fieldN, BitVec.getLsbD_append, BitVec.getLsbD_extractLsb']
  split
  · simp [*]
  · split
    · have e : 4 + (k - 4) = k := by omega
      simp [*]
    · split
      · have e : 8 + (k - 4 - 4) = k := by omega
        simp [*]
      · have : k - 4 - 4 - 4 < 4 := by omega
        have e : 12 + (k - 4 - 4 - 4) = k := by omega
        simp [this, e]

/-- Selecting by match and mask (R95) on the three word shapes: the mask keeps the fixed bits. -/
theorem wordNNN_mask (f : Nibble) (nnn : Addr12) : wordNNN f nnn &&& 0xF000 = wordNNN f 0 := by
  apply BitVec.eq_of_getLsbD_eq; intro k hk
  simp only [wordNNN, BitVec.getLsbD_and, BitVec.getLsbD_append]
  interval_cases k <;> simp

theorem wordXKK_mask (f x : Nibble) (kk : Byte) : wordXKK f x kk &&& 0xF000 = wordXKK f 0 0 := by
  apply BitVec.eq_of_getLsbD_eq; intro k hk
  simp only [wordXKK, BitVec.getLsbD_and, BitVec.getLsbD_append]
  interval_cases k <;> simp

theorem wordXKK_mask_kk (f x : Nibble) (kk : Byte) : wordXKK f x kk &&& 0xF0FF = wordXKK f 0 kk := by
  apply BitVec.eq_of_getLsbD_eq; intro k hk
  simp only [wordXKK, BitVec.getLsbD_and, BitVec.getLsbD_append]
  interval_cases k <;> simp

theorem wordXYN_mask (f x y n : Nibble) : wordXYN f x y n &&& 0xF000 = wordXYN f 0 0 0 := by
  apply BitVec.eq_of_getLsbD_eq; intro k hk
  simp only [wordXYN, BitVec.getLsbD_and, BitVec.getLsbD_append]
  interval_cases k <;> simp

theorem wordXYN_mask_n (f x y n : Nibble) : wordXYN f x y n &&& 0xF00F = wordXYN f 0 0 n := by
  apply BitVec.eq_of_getLsbD_eq; intro k hk
  simp only [wordXYN, BitVec.getLsbD_and, BitVec.getLsbD_append]
  interval_cases k <;> simp

/-- The two bytes of a word, high byte first, are the word (R62). -/
theorem joinBytes_high_low (w : Word) : joinBytes (highByte w) (lowByte w) = w := by
  apply BitVec.eq_of_getLsbD_eq; intro k hk
  simp only [joinBytes, highByte, lowByte, BitVec.getLsbD_append, BitVec.getLsbD_extractLsb']
  split
  · simp [*]
  · have : k - 8 < 8 := by omega
    have e : 8 + (k - 8) = k := by omega
    simp [this, e]

end Sys2Proof
end

