-- ==== Sys2Proof/Laws/Memory.lean ====
section
/-!
SUPPORT. RAM: read after write, and the canonical form that every RAM operation keeps.
-/

namespace Sys2Proof.Machine

/-! ### Read after write (20_memory.md R71) -/

theorem Memory.read_erase (m : Memory) (a b : Nat) :
    (m.erase a).read b = if b = a then Memory.unlisted a else m.read b := by
  induction m with
  | nil => by_cases h : b = a <;> simp [Memory.erase, Memory.read, h]
  | cons c rest ih =>
    unfold Memory.erase at ih ⊢
    by_cases hc : c.1 = a
    · by_cases h : b = a
      · simpa [List.filter_cons, hc, h] using ih
      · have hab : ¬ a = b := fun e => h e.symm
        simpa [List.filter_cons, hc, h, Memory.read, hab] using ih
    · by_cases hb : c.1 = b
      · have : ¬ b = a := fun e => hc (hb.trans e)
        simp [hb, Memory.read, this]
      · simpa [List.filter_cons, hc, Memory.read, hb] using ih

/-- Inserting a cell whose address is not listed. -/
theorem Memory.read_insert (a : Nat) (v : Byte) (m : Memory) (h : ∀ c ∈ m, c.1 ≠ a) (b : Nat) :
    (Memory.insert a v m).read b = if b = a then v else m.read b := by
  induction m with
  | nil =>
    by_cases e : b = a
    · simp [Memory.insert, Memory.read, e]
    · simp [Memory.insert, Memory.read, e, show ¬ a = b from fun h => e h.symm]
  | cons c rest ih =>
    have hc : c.1 ≠ a := h c (by simp)
    have ih := ih (fun d hd => h d (by simp [hd]))
    unfold Memory.insert
    split
    · by_cases e : b = a
      · simp [Memory.read, e]
      · simp [Memory.read, e, show ¬ a = b from fun h => e h.symm]
    · by_cases e : b = a
      · subst e; simpa [Memory.read, hc] using ih
      · by_cases hb : c.1 = b
        · simp [Memory.read, hb, e]
        · simpa [Memory.read, hb, e] using ih

theorem Memory.erase_ne (m : Memory) (a : Nat) : ∀ c ∈ m.erase a, c.1 ≠ a := by
  intro c hc
  simpa using (List.mem_filter.mp hc).2

/-- A read after a write to the same address gives the byte written, and a write leaves every other address
alone. It holds of every list, canonical or not. -/
theorem Memory.read_write (m : Memory) (a : Nat) (v : Byte) (b : Nat) :
    (m.write a v).read b = if b = a then v else m.read b := by
  unfold Memory.write
  split
  · next h => rw [Memory.read_erase]; simp [h]
  · rw [Memory.read_insert a v _ (Memory.erase_ne m a), Memory.read_erase]
    by_cases e : b = a <;> simp [e]

/-- Consecutive writes: the bytes written, and every other address alone. -/
theorem Memory.read_writeBytes (bs : List Byte) (m : Memory) (base b : Nat) :
    (m.writeBytes base bs).read b =
      if h : base ≤ b ∧ b < base + bs.length then bs[b - base]'(by omega) else m.read b := by
  induction bs generalizing m base with
  | nil => simp [Memory.writeBytes, show ¬ (base ≤ b ∧ b < base) by omega]
  | cons v bs ih =>
    simp only [Memory.writeBytes, ih, Memory.read_write, List.length_cons]
    by_cases h1 : base + 1 ≤ b ∧ b < base + 1 + bs.length
    · have h2 : base ≤ b ∧ b < base + (bs.length + 1) := by omega
      have e : b - base = (b - (base + 1)) + 1 := by omega
      simp [h1, h2, e]
    · by_cases h2 : b = base
      · subst h2; simp
      · have h3 : ¬ (base ≤ b ∧ b < base + (bs.length + 1)) := by omega
        rw [dif_neg h1, dif_neg h3, if_neg h2]

/-! ### The canonical form -/

theorem Memory.wfFrom_mono (m : Memory) (lo lo' : Nat) (h : lo' ≤ lo) (w : Memory.wfFrom lo m = true) :
    Memory.wfFrom lo' m = true := by
  cases m with
  | nil => rfl
  | cons c rest =>
    simp only [Memory.wfFrom, Bool.and_eq_true, decide_eq_true_eq] at w ⊢
    exact ⟨⟨⟨by omega, w.1.1.2⟩, w.1.2⟩, w.2⟩

theorem Memory.wfFrom_erase (m : Memory) (a lo : Nat) (w : Memory.wfFrom lo m = true) :
    Memory.wfFrom lo (m.erase a) = true := by
  induction m generalizing lo with
  | nil => rfl
  | cons c rest ih =>
    simp only [Memory.wfFrom, Bool.and_eq_true, decide_eq_true_eq] at w
    obtain ⟨⟨⟨h1, h2⟩, h3⟩, h4⟩ := w
    have ih := ih _ h4
    unfold Memory.erase at ih ⊢
    by_cases hc : c.1 = a
    · simpa [List.filter_cons, hc] using Memory.wfFrom_mono _ _ lo (by omega) ih
    · rw [List.filter_cons, if_pos (by simpa using hc)]
      simp only [Memory.wfFrom, Bool.and_eq_true, decide_eq_true_eq]
      exact ⟨⟨⟨h1, h2⟩, h3⟩, ih⟩

theorem Memory.wfFrom_insert (a : Nat) (v : Byte) (m : Memory) (lo : Nat) (hlo : lo ≤ a)
    (ha : a < Config.memSize) (hv : v ≠ Memory.unlisted a) (hm : ∀ c ∈ m, c.1 ≠ a)
    (w : Memory.wfFrom lo m = true) : Memory.wfFrom lo (Memory.insert a v m) = true := by
  induction m generalizing lo with
  | nil => simp [Memory.insert, Memory.wfFrom, hlo, ha, hv]
  | cons c rest ih =>
    have hc : c.1 ≠ a := hm c (by simp)
    simp only [Memory.wfFrom, Bool.and_eq_true, decide_eq_true_eq] at w
    obtain ⟨⟨⟨h1, h2⟩, h3⟩, h4⟩ := w
    unfold Memory.insert
    split
    · next hlt =>
      simp only [Memory.wfFrom, Bool.and_eq_true, decide_eq_true_eq]
      exact ⟨⟨⟨hlo, ha⟩, by simpa using hv⟩, ⟨⟨by omega, h2⟩, h3⟩, h4⟩
    · have ih := ih (c.1 + 1) (by omega) (fun d hd => hm d (by simp [hd])) h4
      simp only [Memory.wfFrom, Bool.and_eq_true, decide_eq_true_eq]
      exact ⟨⟨⟨h1, h2⟩, h3⟩, ih⟩

/-- A write to an address of the RAM keeps the canonical form. -/
theorem Memory.wf_write (m : Memory) (a : Nat) (v : Byte) (ha : a < Config.memSize) (w : m.wf = true) :
    (m.write a v).wf = true := by
  unfold Memory.write Memory.wf
  split
  · exact Memory.wfFrom_erase m a 0 w
  · next hv =>
    exact Memory.wfFrom_insert a v _ 0 (Nat.zero_le a) ha hv (Memory.erase_ne m a) (Memory.wfFrom_erase m a 0 w)

/-- Consecutive writes inside the RAM keep the canonical form. -/
theorem Memory.wf_writeBytes (bs : List Byte) (m : Memory) (base : Nat) (h : base + bs.length ≤ Config.memSize)
    (w : m.wf = true) : (m.writeBytes base bs).wf = true := by
  induction bs generalizing m base with
  | nil => exact w
  | cons v bs ih =>
    simp only [List.length_cons] at h
    exact ih _ _ (by omega) (Memory.wf_write m base v (by omega) w)

/-- Reset memory is canonical. -/
theorem Memory.wf_reset : State.reset.mem.wf = true := rfl

end Sys2Proof.Machine
end

