-- ==== Sys2Proof/Laws/State.lean ====
section
/-!
SUPPORT. One lemma per field per update of the state, true by rfl, and the accessors on the updates, so that no
proof unfolds a record update.
-/

namespace Sys2Proof.Machine

variable (s : State)

/-! ### setReg -/

@[simp] theorem State.setReg_v (x : Nibble) (b : Byte) : (s.setReg x b).v = s.v.set x.toNat b x.isLt := rfl
@[simp] theorem State.setReg_i (x : Nibble) (b : Byte) : (s.setReg x b).i = s.i := rfl
@[simp] theorem State.setReg_pc (x : Nibble) (b : Byte) : (s.setReg x b).pc = s.pc := rfl
@[simp] theorem State.setReg_stack (x : Nibble) (b : Byte) : (s.setReg x b).stack = s.stack := rfl
@[simp] theorem State.setReg_sp (x : Nibble) (b : Byte) : (s.setReg x b).sp = s.sp := rfl
@[simp] theorem State.setReg_dt (x : Nibble) (b : Byte) : (s.setReg x b).dt = s.dt := rfl
@[simp] theorem State.setReg_st (x : Nibble) (b : Byte) : (s.setReg x b).st = s.st := rfl
@[simp] theorem State.setReg_mem (x : Nibble) (b : Byte) : (s.setReg x b).mem = s.mem := rfl
@[simp] theorem State.setReg_fb (x : Nibble) (b : Byte) : (s.setReg x b).fb = s.fb := rfl
@[simp] theorem State.setReg_keys (x : Nibble) (b : Byte) : (s.setReg x b).keys = s.keys := rfl
@[simp] theorem State.setReg_cfg (x : Nibble) (b : Byte) : (s.setReg x b).cfg = s.cfg := rfl
@[simp] theorem State.setReg_draws (x : Nibble) (b : Byte) : (s.setReg x b).draws = s.draws := rfl
@[simp] theorem State.setReg_readByte (x : Nibble) (b : Byte) (p : Nat) : (s.setReg x b).readByte p = s.readByte p := rfl
@[simp] theorem State.setReg_key (x : Nibble) (b : Byte) (q : Fin 16) : (s.setReg x b).key q = s.key q := rfl

/-! ### setRegs -/

@[simp] theorem State.setRegs_v (v : Vector Byte 16) : (s.setRegs v).v = v := rfl
@[simp] theorem State.setRegs_i (v : Vector Byte 16) : (s.setRegs v).i = s.i := rfl
@[simp] theorem State.setRegs_pc (v : Vector Byte 16) : (s.setRegs v).pc = s.pc := rfl
@[simp] theorem State.setRegs_stack (v : Vector Byte 16) : (s.setRegs v).stack = s.stack := rfl
@[simp] theorem State.setRegs_sp (v : Vector Byte 16) : (s.setRegs v).sp = s.sp := rfl
@[simp] theorem State.setRegs_dt (v : Vector Byte 16) : (s.setRegs v).dt = s.dt := rfl
@[simp] theorem State.setRegs_st (v : Vector Byte 16) : (s.setRegs v).st = s.st := rfl
@[simp] theorem State.setRegs_mem (v : Vector Byte 16) : (s.setRegs v).mem = s.mem := rfl
@[simp] theorem State.setRegs_fb (v : Vector Byte 16) : (s.setRegs v).fb = s.fb := rfl
@[simp] theorem State.setRegs_keys (v : Vector Byte 16) : (s.setRegs v).keys = s.keys := rfl
@[simp] theorem State.setRegs_cfg (v : Vector Byte 16) : (s.setRegs v).cfg = s.cfg := rfl
@[simp] theorem State.setRegs_draws (v : Vector Byte 16) : (s.setRegs v).draws = s.draws := rfl
@[simp] theorem State.setRegs_readByte (v : Vector Byte 16) (p : Nat) : (s.setRegs v).readByte p = s.readByte p := rfl
@[simp] theorem State.setRegs_key (v : Vector Byte 16) (q : Fin 16) : (s.setRegs v).key q = s.key q := rfl

/-! ### setPc -/

@[simp] theorem State.setPc_v (a : Word) : (s.setPc a).v = s.v := rfl
@[simp] theorem State.setPc_i (a : Word) : (s.setPc a).i = s.i := rfl
@[simp] theorem State.setPc_pc (a : Word) : (s.setPc a).pc = a := rfl
@[simp] theorem State.setPc_stack (a : Word) : (s.setPc a).stack = s.stack := rfl
@[simp] theorem State.setPc_sp (a : Word) : (s.setPc a).sp = s.sp := rfl
@[simp] theorem State.setPc_dt (a : Word) : (s.setPc a).dt = s.dt := rfl
@[simp] theorem State.setPc_st (a : Word) : (s.setPc a).st = s.st := rfl
@[simp] theorem State.setPc_mem (a : Word) : (s.setPc a).mem = s.mem := rfl
@[simp] theorem State.setPc_fb (a : Word) : (s.setPc a).fb = s.fb := rfl
@[simp] theorem State.setPc_keys (a : Word) : (s.setPc a).keys = s.keys := rfl
@[simp] theorem State.setPc_cfg (a : Word) : (s.setPc a).cfg = s.cfg := rfl
@[simp] theorem State.setPc_draws (a : Word) : (s.setPc a).draws = s.draws := rfl
@[simp] theorem State.setPc_reg (a : Word) (r : Nibble) : (s.setPc a).reg r = s.reg r := rfl
@[simp] theorem State.setPc_readByte (a : Word) (p : Nat) : (s.setPc a).readByte p = s.readByte p := rfl
@[simp] theorem State.setPc_key (a : Word) (q : Fin 16) : (s.setPc a).key q = s.key q := rfl

/-! ### setI -/

@[simp] theorem State.setI_v (a : Word) : (s.setI a).v = s.v := rfl
@[simp] theorem State.setI_i (a : Word) : (s.setI a).i = a := rfl
@[simp] theorem State.setI_pc (a : Word) : (s.setI a).pc = s.pc := rfl
@[simp] theorem State.setI_stack (a : Word) : (s.setI a).stack = s.stack := rfl
@[simp] theorem State.setI_sp (a : Word) : (s.setI a).sp = s.sp := rfl
@[simp] theorem State.setI_dt (a : Word) : (s.setI a).dt = s.dt := rfl
@[simp] theorem State.setI_st (a : Word) : (s.setI a).st = s.st := rfl
@[simp] theorem State.setI_mem (a : Word) : (s.setI a).mem = s.mem := rfl
@[simp] theorem State.setI_fb (a : Word) : (s.setI a).fb = s.fb := rfl
@[simp] theorem State.setI_keys (a : Word) : (s.setI a).keys = s.keys := rfl
@[simp] theorem State.setI_cfg (a : Word) : (s.setI a).cfg = s.cfg := rfl
@[simp] theorem State.setI_draws (a : Word) : (s.setI a).draws = s.draws := rfl
@[simp] theorem State.setI_reg (a : Word) (r : Nibble) : (s.setI a).reg r = s.reg r := rfl
@[simp] theorem State.setI_readByte (a : Word) (p : Nat) : (s.setI a).readByte p = s.readByte p := rfl
@[simp] theorem State.setI_key (a : Word) (q : Fin 16) : (s.setI a).key q = s.key q := rfl

/-! ### setDt -/

@[simp] theorem State.setDt_v (b : Byte) : (s.setDt b).v = s.v := rfl
@[simp] theorem State.setDt_i (b : Byte) : (s.setDt b).i = s.i := rfl
@[simp] theorem State.setDt_pc (b : Byte) : (s.setDt b).pc = s.pc := rfl
@[simp] theorem State.setDt_stack (b : Byte) : (s.setDt b).stack = s.stack := rfl
@[simp] theorem State.setDt_sp (b : Byte) : (s.setDt b).sp = s.sp := rfl
@[simp] theorem State.setDt_dt (b : Byte) : (s.setDt b).dt = b := rfl
@[simp] theorem State.setDt_st (b : Byte) : (s.setDt b).st = s.st := rfl
@[simp] theorem State.setDt_mem (b : Byte) : (s.setDt b).mem = s.mem := rfl
@[simp] theorem State.setDt_fb (b : Byte) : (s.setDt b).fb = s.fb := rfl
@[simp] theorem State.setDt_keys (b : Byte) : (s.setDt b).keys = s.keys := rfl
@[simp] theorem State.setDt_cfg (b : Byte) : (s.setDt b).cfg = s.cfg := rfl
@[simp] theorem State.setDt_draws (b : Byte) : (s.setDt b).draws = s.draws := rfl
@[simp] theorem State.setDt_reg (b : Byte) (r : Nibble) : (s.setDt b).reg r = s.reg r := rfl
@[simp] theorem State.setDt_readByte (b : Byte) (p : Nat) : (s.setDt b).readByte p = s.readByte p := rfl
@[simp] theorem State.setDt_key (b : Byte) (q : Fin 16) : (s.setDt b).key q = s.key q := rfl

/-! ### setSt -/

@[simp] theorem State.setSt_v (b : Byte) : (s.setSt b).v = s.v := rfl
@[simp] theorem State.setSt_i (b : Byte) : (s.setSt b).i = s.i := rfl
@[simp] theorem State.setSt_pc (b : Byte) : (s.setSt b).pc = s.pc := rfl
@[simp] theorem State.setSt_stack (b : Byte) : (s.setSt b).stack = s.stack := rfl
@[simp] theorem State.setSt_sp (b : Byte) : (s.setSt b).sp = s.sp := rfl
@[simp] theorem State.setSt_dt (b : Byte) : (s.setSt b).dt = s.dt := rfl
@[simp] theorem State.setSt_st (b : Byte) : (s.setSt b).st = b := rfl
@[simp] theorem State.setSt_mem (b : Byte) : (s.setSt b).mem = s.mem := rfl
@[simp] theorem State.setSt_fb (b : Byte) : (s.setSt b).fb = s.fb := rfl
@[simp] theorem State.setSt_keys (b : Byte) : (s.setSt b).keys = s.keys := rfl
@[simp] theorem State.setSt_cfg (b : Byte) : (s.setSt b).cfg = s.cfg := rfl
@[simp] theorem State.setSt_draws (b : Byte) : (s.setSt b).draws = s.draws := rfl
@[simp] theorem State.setSt_reg (b : Byte) (r : Nibble) : (s.setSt b).reg r = s.reg r := rfl
@[simp] theorem State.setSt_readByte (b : Byte) (p : Nat) : (s.setSt b).readByte p = s.readByte p := rfl
@[simp] theorem State.setSt_key (b : Byte) (q : Fin 16) : (s.setSt b).key q = s.key q := rfl

/-! ### setMem -/

@[simp] theorem State.setMem_v (m : Memory) : (s.setMem m).v = s.v := rfl
@[simp] theorem State.setMem_i (m : Memory) : (s.setMem m).i = s.i := rfl
@[simp] theorem State.setMem_pc (m : Memory) : (s.setMem m).pc = s.pc := rfl
@[simp] theorem State.setMem_stack (m : Memory) : (s.setMem m).stack = s.stack := rfl
@[simp] theorem State.setMem_sp (m : Memory) : (s.setMem m).sp = s.sp := rfl
@[simp] theorem State.setMem_dt (m : Memory) : (s.setMem m).dt = s.dt := rfl
@[simp] theorem State.setMem_st (m : Memory) : (s.setMem m).st = s.st := rfl
@[simp] theorem State.setMem_mem (m : Memory) : (s.setMem m).mem = m := rfl
@[simp] theorem State.setMem_fb (m : Memory) : (s.setMem m).fb = s.fb := rfl
@[simp] theorem State.setMem_keys (m : Memory) : (s.setMem m).keys = s.keys := rfl
@[simp] theorem State.setMem_cfg (m : Memory) : (s.setMem m).cfg = s.cfg := rfl
@[simp] theorem State.setMem_draws (m : Memory) : (s.setMem m).draws = s.draws := rfl
@[simp] theorem State.setMem_reg (m : Memory) (r : Nibble) : (s.setMem m).reg r = s.reg r := rfl
@[simp] theorem State.setMem_key (m : Memory) (q : Fin 16) : (s.setMem m).key q = s.key q := rfl

/-! ### setFb -/

@[simp] theorem State.setFb_v (fb : Framebuffer) : (s.setFb fb).v = s.v := rfl
@[simp] theorem State.setFb_i (fb : Framebuffer) : (s.setFb fb).i = s.i := rfl
@[simp] theorem State.setFb_pc (fb : Framebuffer) : (s.setFb fb).pc = s.pc := rfl
@[simp] theorem State.setFb_stack (fb : Framebuffer) : (s.setFb fb).stack = s.stack := rfl
@[simp] theorem State.setFb_sp (fb : Framebuffer) : (s.setFb fb).sp = s.sp := rfl
@[simp] theorem State.setFb_dt (fb : Framebuffer) : (s.setFb fb).dt = s.dt := rfl
@[simp] theorem State.setFb_st (fb : Framebuffer) : (s.setFb fb).st = s.st := rfl
@[simp] theorem State.setFb_mem (fb : Framebuffer) : (s.setFb fb).mem = s.mem := rfl
@[simp] theorem State.setFb_fb (fb : Framebuffer) : (s.setFb fb).fb = fb := rfl
@[simp] theorem State.setFb_keys (fb : Framebuffer) : (s.setFb fb).keys = s.keys := rfl
@[simp] theorem State.setFb_cfg (fb : Framebuffer) : (s.setFb fb).cfg = s.cfg := rfl
@[simp] theorem State.setFb_draws (fb : Framebuffer) : (s.setFb fb).draws = s.draws := rfl
@[simp] theorem State.setFb_reg (fb : Framebuffer) (r : Nibble) : (s.setFb fb).reg r = s.reg r := rfl
@[simp] theorem State.setFb_readByte (fb : Framebuffer) (p : Nat) : (s.setFb fb).readByte p = s.readByte p := rfl
@[simp] theorem State.setFb_key (fb : Framebuffer) (q : Fin 16) : (s.setFb fb).key q = s.key q := rfl

/-! ### setKeys -/

@[simp] theorem State.setKeys_v (k : BitVec 16) : (s.setKeys k).v = s.v := rfl
@[simp] theorem State.setKeys_i (k : BitVec 16) : (s.setKeys k).i = s.i := rfl
@[simp] theorem State.setKeys_pc (k : BitVec 16) : (s.setKeys k).pc = s.pc := rfl
@[simp] theorem State.setKeys_stack (k : BitVec 16) : (s.setKeys k).stack = s.stack := rfl
@[simp] theorem State.setKeys_sp (k : BitVec 16) : (s.setKeys k).sp = s.sp := rfl
@[simp] theorem State.setKeys_dt (k : BitVec 16) : (s.setKeys k).dt = s.dt := rfl
@[simp] theorem State.setKeys_st (k : BitVec 16) : (s.setKeys k).st = s.st := rfl
@[simp] theorem State.setKeys_mem (k : BitVec 16) : (s.setKeys k).mem = s.mem := rfl
@[simp] theorem State.setKeys_fb (k : BitVec 16) : (s.setKeys k).fb = s.fb := rfl
@[simp] theorem State.setKeys_keys (k : BitVec 16) : (s.setKeys k).keys = k := rfl
@[simp] theorem State.setKeys_cfg (k : BitVec 16) : (s.setKeys k).cfg = s.cfg := rfl
@[simp] theorem State.setKeys_draws (k : BitVec 16) : (s.setKeys k).draws = s.draws := rfl
@[simp] theorem State.setKeys_reg (k : BitVec 16) (r : Nibble) : (s.setKeys k).reg r = s.reg r := rfl
@[simp] theorem State.setKeys_readByte (k : BitVec 16) (p : Nat) : (s.setKeys k).readByte p = s.readByte p := rfl

/-! ### countDraw -/

@[simp] theorem State.countDraw_v : (s.countDraw).v = s.v := rfl
@[simp] theorem State.countDraw_i : (s.countDraw).i = s.i := rfl
@[simp] theorem State.countDraw_pc : (s.countDraw).pc = s.pc := rfl
@[simp] theorem State.countDraw_stack : (s.countDraw).stack = s.stack := rfl
@[simp] theorem State.countDraw_sp : (s.countDraw).sp = s.sp := rfl
@[simp] theorem State.countDraw_dt : (s.countDraw).dt = s.dt := rfl
@[simp] theorem State.countDraw_st : (s.countDraw).st = s.st := rfl
@[simp] theorem State.countDraw_mem : (s.countDraw).mem = s.mem := rfl
@[simp] theorem State.countDraw_fb : (s.countDraw).fb = s.fb := rfl
@[simp] theorem State.countDraw_keys : (s.countDraw).keys = s.keys := rfl
@[simp] theorem State.countDraw_cfg : (s.countDraw).cfg = s.cfg := rfl
@[simp] theorem State.countDraw_draws : (s.countDraw).draws = s.draws + 1 := rfl
@[simp] theorem State.countDraw_reg (r : Nibble) : (s.countDraw).reg r = s.reg r := rfl
@[simp] theorem State.countDraw_readByte (p : Nat) : (s.countDraw).readByte p = s.readByte p := rfl
@[simp] theorem State.countDraw_key (q : Fin 16) : (s.countDraw).key q = s.key q := rfl

/-! ### advance -/

@[simp] theorem State.advance_v : (s.advance).v = s.v := rfl
@[simp] theorem State.advance_i : (s.advance).i = s.i := rfl
@[simp] theorem State.advance_pc : (s.advance).pc = s.pc + 2 := rfl
@[simp] theorem State.advance_stack : (s.advance).stack = s.stack := rfl
@[simp] theorem State.advance_sp : (s.advance).sp = s.sp := rfl
@[simp] theorem State.advance_dt : (s.advance).dt = s.dt := rfl
@[simp] theorem State.advance_st : (s.advance).st = s.st := rfl
@[simp] theorem State.advance_mem : (s.advance).mem = s.mem := rfl
@[simp] theorem State.advance_fb : (s.advance).fb = s.fb := rfl
@[simp] theorem State.advance_keys : (s.advance).keys = s.keys := rfl
@[simp] theorem State.advance_cfg : (s.advance).cfg = s.cfg := rfl
@[simp] theorem State.advance_draws : (s.advance).draws = s.draws := rfl
@[simp] theorem State.advance_reg (r : Nibble) : (s.advance).reg r = s.reg r := rfl
@[simp] theorem State.advance_readByte (p : Nat) : (s.advance).readByte p = s.readByte p := rfl
@[simp] theorem State.advance_key (q : Fin 16) : (s.advance).key q = s.key q := rfl

/-! ### push -/

@[simp] theorem State.push_v (a : Word) (h : s.sp.val < 16) : (s.push a h).v = s.v := rfl
@[simp] theorem State.push_i (a : Word) (h : s.sp.val < 16) : (s.push a h).i = s.i := rfl
@[simp] theorem State.push_pc (a : Word) (h : s.sp.val < 16) : (s.push a h).pc = s.pc := rfl
@[simp] theorem State.push_stack (a : Word) (h : s.sp.val < 16) : (s.push a h).stack = s.stack.set s.sp.val a h := rfl
@[simp] theorem State.push_sp (a : Word) (h : s.sp.val < 16) : (s.push a h).sp = ⟨s.sp.val + 1, Nat.succ_lt_succ h⟩ := rfl
@[simp] theorem State.push_dt (a : Word) (h : s.sp.val < 16) : (s.push a h).dt = s.dt := rfl
@[simp] theorem State.push_st (a : Word) (h : s.sp.val < 16) : (s.push a h).st = s.st := rfl
@[simp] theorem State.push_mem (a : Word) (h : s.sp.val < 16) : (s.push a h).mem = s.mem := rfl
@[simp] theorem State.push_fb (a : Word) (h : s.sp.val < 16) : (s.push a h).fb = s.fb := rfl
@[simp] theorem State.push_keys (a : Word) (h : s.sp.val < 16) : (s.push a h).keys = s.keys := rfl
@[simp] theorem State.push_cfg (a : Word) (h : s.sp.val < 16) : (s.push a h).cfg = s.cfg := rfl
@[simp] theorem State.push_draws (a : Word) (h : s.sp.val < 16) : (s.push a h).draws = s.draws := rfl
@[simp] theorem State.push_reg (a : Word) (h : s.sp.val < 16) (r : Nibble) : (s.push a h).reg r = s.reg r := rfl
@[simp] theorem State.push_readByte (a : Word) (h : s.sp.val < 16) (p : Nat) : (s.push a h).readByte p = s.readByte p := rfl
@[simp] theorem State.push_key (a : Word) (h : s.sp.val < 16) (q : Fin 16) : (s.push a h).key q = s.key q := rfl

/-! ### pop -/

@[simp] theorem State.pop_v : (s.pop).v = s.v := rfl
@[simp] theorem State.pop_i : (s.pop).i = s.i := rfl
@[simp] theorem State.pop_pc : (s.pop).pc = s.pc := rfl
@[simp] theorem State.pop_stack : (s.pop).stack = s.stack := rfl
@[simp] theorem State.pop_sp : (s.pop).sp = ⟨s.sp.val - 1, by have := s.sp.isLt; omega⟩ := rfl
@[simp] theorem State.pop_dt : (s.pop).dt = s.dt := rfl
@[simp] theorem State.pop_st : (s.pop).st = s.st := rfl
@[simp] theorem State.pop_mem : (s.pop).mem = s.mem := rfl
@[simp] theorem State.pop_fb : (s.pop).fb = s.fb := rfl
@[simp] theorem State.pop_keys : (s.pop).keys = s.keys := rfl
@[simp] theorem State.pop_cfg : (s.pop).cfg = s.cfg := rfl
@[simp] theorem State.pop_draws : (s.pop).draws = s.draws := rfl
@[simp] theorem State.pop_reg (r : Nibble) : (s.pop).reg r = s.reg r := rfl
@[simp] theorem State.pop_readByte (p : Nat) : (s.pop).readByte p = s.readByte p := rfl
@[simp] theorem State.pop_key (q : Fin 16) : (s.pop).key q = s.key q := rfl

/-! ### Registers after register writes -/

/-- A register write is read back, and no other register changes (R21: no register has an alias). -/
theorem State.reg_setReg (x r : Nibble) (b : Byte) : (s.setReg x b).reg r = if r = x then b else s.reg r := by
  unfold State.reg State.setReg
  rw [Vector.getElem_set]
  by_cases h : r = x
  · subst h; simp
  · have : x.toNat ≠ r.toNat := fun e => h (BitVec.eq_of_toNat_eq e.symm)
    simp [h, this]

@[simp] theorem State.setReg_reg_same (x : Nibble) (b : Byte) : (s.setReg x b).reg x = b := by
  simp [State.reg_setReg]

theorem State.setReg_reg_ne (x r : Nibble) (b : Byte) (h : r ≠ x) : (s.setReg x b).reg r = s.reg r := by
  simp [State.reg_setReg, h]

/-- Two states with the same registers have the same register file. -/
theorem State.v_eq_of_reg_eq {s t : State} (h : ∀ r, t.reg r = s.reg r) : t.v = s.v := by
  apply Vector.ext
  intro k hk
  have := h (BitVec.ofNat 4 k)
  have e : (BitVec.ofNat 4 k).toNat = k := by simp; omega
  simpa [State.reg, e] using this

/-! ### setFlag and aluWrite (R180) -/

/-- Writing the flag is writing VF. -/
theorem State.setFlag_eq (f : Bool) : s.setFlag f = s.setReg vf (flagByte f) := rfl

/-- After the two writes of a flag-writing instruction VF is the flag, X the result unless X is F (R180, R194), and
every other register as before. -/
theorem State.aluWrite_reg (x r : Nibble) (b : Byte) (f : Bool) :
    (s.aluWrite x b f).reg r = if r = vf then flagByte f else if r = x then b else s.reg r := by
  simp [State.aluWrite, State.setFlag_eq, State.reg_setReg]

@[simp] theorem State.aluWrite_i (x : Nibble) (b : Byte) (f : Bool) : (s.aluWrite x b f).i = s.i := rfl
@[simp] theorem State.setFlag_i (f : Bool) : (s.setFlag f).i = s.i := rfl
@[simp] theorem State.aluWrite_pc (x : Nibble) (b : Byte) (f : Bool) : (s.aluWrite x b f).pc = s.pc + 2 := rfl
@[simp] theorem State.setFlag_pc (f : Bool) : (s.setFlag f).pc = s.pc := rfl
@[simp] theorem State.aluWrite_stack (x : Nibble) (b : Byte) (f : Bool) : (s.aluWrite x b f).stack = s.stack := rfl
@[simp] theorem State.setFlag_stack (f : Bool) : (s.setFlag f).stack = s.stack := rfl
@[simp] theorem State.aluWrite_sp (x : Nibble) (b : Byte) (f : Bool) : (s.aluWrite x b f).sp = s.sp := rfl
@[simp] theorem State.setFlag_sp (f : Bool) : (s.setFlag f).sp = s.sp := rfl
@[simp] theorem State.aluWrite_dt (x : Nibble) (b : Byte) (f : Bool) : (s.aluWrite x b f).dt = s.dt := rfl
@[simp] theorem State.setFlag_dt (f : Bool) : (s.setFlag f).dt = s.dt := rfl
@[simp] theorem State.aluWrite_st (x : Nibble) (b : Byte) (f : Bool) : (s.aluWrite x b f).st = s.st := rfl
@[simp] theorem State.setFlag_st (f : Bool) : (s.setFlag f).st = s.st := rfl
@[simp] theorem State.aluWrite_mem (x : Nibble) (b : Byte) (f : Bool) : (s.aluWrite x b f).mem = s.mem := rfl
@[simp] theorem State.setFlag_mem (f : Bool) : (s.setFlag f).mem = s.mem := rfl
@[simp] theorem State.aluWrite_fb (x : Nibble) (b : Byte) (f : Bool) : (s.aluWrite x b f).fb = s.fb := rfl
@[simp] theorem State.setFlag_fb (f : Bool) : (s.setFlag f).fb = s.fb := rfl
@[simp] theorem State.aluWrite_keys (x : Nibble) (b : Byte) (f : Bool) : (s.aluWrite x b f).keys = s.keys := rfl
@[simp] theorem State.setFlag_keys (f : Bool) : (s.setFlag f).keys = s.keys := rfl
@[simp] theorem State.aluWrite_cfg (x : Nibble) (b : Byte) (f : Bool) : (s.aluWrite x b f).cfg = s.cfg := rfl
@[simp] theorem State.setFlag_cfg (f : Bool) : (s.setFlag f).cfg = s.cfg := rfl
@[simp] theorem State.aluWrite_draws (x : Nibble) (b : Byte) (f : Bool) : (s.aluWrite x b f).draws = s.draws := rfl
@[simp] theorem State.setFlag_draws (f : Bool) : (s.setFlag f).draws = s.draws := rfl
@[simp] theorem State.aluWrite_readByte (x : Nibble) (b : Byte) (f : Bool) (p : Nat) :
    (s.aluWrite x b f).readByte p = s.readByte p := rfl
@[simp] theorem State.setFlag_readByte (f : Bool) (p : Nat) : (s.setFlag f).readByte p = s.readByte p := rfl

/-! ### skipIf (R160) -/

/-- A skip leaves pc0 + 4 when its condition holds, else pc0 + 2. -/
theorem State.skipIf_pc (c : Bool) : (s.skipIf c).pc = if c then s.pc + 4 else s.pc + 2 := by
  cases c
  · rfl
  · simp only [State.skipIf, if_true, State.setPc_pc, State.advance_pc]
    rw [BitVec.add_assoc]; rfl

/-- A skip writes pc and nothing else. -/
theorem State.skipIf_eq_setPc (c : Bool) : s.skipIf c = s.setPc (if c then s.pc + 4 else s.pc + 2) := by
  rw [← State.skipIf_pc]; cases c <;> rfl

end Sys2Proof.Machine
end

