-- ==== Sys2Proof/Laws/Ops.lean ====
section
/-!
SUPPORT. One lemma for each shared operation that says all it can do: the range check, the checked instruction,
raising an error, fetch, the step, the operand forms and the flags.
-/

namespace Sys2Proof.Machine

/-! ### Range check and checked accesses (20_memory.md R61, 44_index_and_memory.md R217) -/

theorem outOfRange_eq_none (base len : Nat) : outOfRange base len = none ↔ len = 0 ∨ base + len ≤ 4096 := by
  unfold outOfRange Config.memSize
  split
  · simp; omega
  · simp; omega

theorem outOfRange_eq_some (base len a : Nat) :
    outOfRange base len = some a ↔ len ≠ 0 ∧ 4096 < base + len ∧ a = max base 4096 := by
  unfold outOfRange Config.memSize
  split
  · next h => simp [h, eq_comm]
  · next h => simp; intro h1 h2; exact absurd ⟨h1, h2⟩ h

/-- The address reported is out of range, in the access range, and the lowest such (R217). -/
theorem outOfRange_least (base len a : Nat) (h : outOfRange base len = some a) :
    (4095 < a ∧ base ≤ a ∧ a < base + len) ∧ ∀ b, base ≤ b → b < base + len → 4095 < b → a ≤ b := by
  obtain ⟨h1, h2, rfl⟩ := (outOfRange_eq_some base len a).mp h
  constructor
  · omega
  · intro b _ _ _; omega

/-- A checked instruction goes on exactly when all its addresses are in range. -/
theorem State.checked_next (s : State) (w : Word) (base len : Nat) (next : State)
    (h : len = 0 ∨ base + len ≤ 4096) : s.checked w base len next = .next next := by
  unfold State.checked
  rw [(outOfRange_eq_none base len).mpr h]

/-- Otherwise it raises AddressOutOfRange with max(base, 4096). -/
theorem State.checked_fault (s : State) (w : Word) (base len : Nat) (next : State) (h0 : len ≠ 0)
    (h : 4096 < base + len) :
    s.checked w base len next = .fault (.addressOutOfRange s.pc w (max base 4096) .ram) := by
  unfold State.checked
  rw [(outOfRange_eq_some base len _).mpr ⟨h0, h, rfl⟩]
  rfl

/-- All a checked instruction can answer. -/
theorem State.checked_cases (s : State) (w : Word) (base len : Nat) (next : State) :
    ((len = 0 ∨ base + len ≤ 4096) ∧ s.checked w base len next = .next next) ∨
      (len ≠ 0 ∧ 4096 < base + len ∧
        s.checked w base len next = .fault (.addressOutOfRange s.pc w (max base 4096) .ram)) := by
  by_cases h : len = 0 ∨ base + len ≤ 4096
  · exact .inl ⟨h, s.checked_next w base len next h⟩
  · exact .inr ⟨by omega, by omega, s.checked_fault w base len next (by omega) (by omega)⟩

/-- A checked instruction that answers a state answers the given one. -/
theorem State.checked_eq_next {s t : State} {w : Word} {base len : Nat} {next : State}
    (h : s.checked w base len next = .next t) : t = next ∧ (len = 0 ∨ base + len ≤ 4096) := by
  rcases s.checked_cases w base len next with ⟨hr, e⟩ | ⟨_, _, e⟩
  · rw [e] at h; exact ⟨by injection h with h; exact h.symm, hr⟩
  · rw [e] at h; cases h

/-- Raising never answers a state (R128). -/
theorem State.raise_ne_next (s t : State) (w : Word) (c : Cause) : s.raise w c ≠ .next t := by
  cases c <;> simp [State.raise]

/-- Raising never answers a refusal. -/
theorem State.raise_ne_refused (s : State) (r : Refusal) (w : Word) (c : Cause) : s.raise w c ≠ .refused r := by
  cases c <;> simp [State.raise]

/-! ### Fetch and step (R122, R132) -/

theorem State.fetch_ok (s : State) (h : s.pc.toNat ≤ 0xFFE) :
    s.fetch = .ok (joinBytes (s.readByte s.pc.toNat) (s.readByte (s.pc.toNat + 1))) := by
  unfold State.fetch
  rw [(outOfRange_eq_none _ _).mpr (.inr (by omega))]

theorem State.fetch_error (s : State) (h : 0xFFE < s.pc.toNat) : s.fetch = .error (max s.pc.toNat 4096) := by
  unfold State.fetch
  rw [(outOfRange_eq_some _ _ _).mpr ⟨by omega, by omega, rfl⟩]

/-- What a step does when the fetched word decodes. -/
theorem step_eq_exec (s : State) (i : Instr) (hpc : s.pc.toNat ≤ 0xFFE)
    (hi : decode (joinBytes (s.readByte s.pc.toNat) (s.readByte (s.pc.toNat + 1))) = .ok i) : step s = exec i s := by
  simp only [step, s.fetch_ok hpc, hi]

/-- A step that answers a state fetched a word that decodes, and is exec of the instruction. -/
theorem step_next_cases {s t : State} (h : step s = .next t) :
    ∃ i, s.pc.toNat ≤ 0xFFE ∧
      decode (joinBytes (s.readByte s.pc.toNat) (s.readByte (s.pc.toNat + 1))) = .ok i ∧ exec i s = .next t := by
  by_cases hpc : s.pc.toNat ≤ 0xFFE
  · unfold step at h
    simp only [s.fetch_ok hpc] at h
    split at h
    · exact absurd h (s.raise_ne_next t _ _)
    · next i hi => exact ⟨i, hpc, hi, h⟩
  · unfold step at h
    simp only [s.fetch_error (by omega)] at h
    exact absurd h (s.raise_ne_next t _ _)

/-! ### The stack (R29) -/

theorem State.top_eq (s : State) (k : Fin 16) (h : s.sp.val = k.val + 1) (h0 : s.sp.val ≠ 0) :
    s.top h0 = s.stack[k] := by
  simp [State.top, h]

/-! ### Operand forms -/

theorem State.regBlock_length (s : State) (x : Nibble) : (s.regBlock x).length = x.toNat + 1 := by
  have := x.isLt
  simp [State.regBlock]; omega

theorem State.regBlock_getElem (s : State) (x : Nibble) (k : Nat) (h : k < (s.regBlock x).length) :
    (s.regBlock x)[k] = s.reg (BitVec.ofNat 4 k) := by
  have hk : k ≤ x.toNat := by rw [s.regBlock_length] at h; omega
  have := x.isLt
  have e : k % 16 = k := by omega
  simp [State.regBlock, State.reg, e]

theorem State.setRegs_loadBlock_reg (s t : State) (x r : Nibble) :
    (t.setRegs (s.loadBlock x)).reg r =
      if r.toNat ≤ x.toNat then s.readByte (s.i.toNat + r.toNat) else s.reg r := by
  simp [State.reg, State.setRegs, State.loadBlock]

theorem bcdDigits_length (b : Byte) : (bcdDigits b).length = 3 := rfl

/-- The key index rule (R167), case by case. -/
theorem keyIndex_low (m : KeyIndexMode) (k : Byte) (h : k.toNat < 16) : keyIndex m k = some ⟨k.toNat, h⟩ := by
  simp [keyIndex, h]

theorem keyIndex_fault (k : Byte) (h : 15 < k.toNat) : keyIndex .fault k = none := by
  have : ¬ k.toNat < 16 := by omega
  simp [keyIndex, this]

theorem keyIndex_lowNibble (k : Byte) : keyIndex .lowNibble k = some (Fin.ofNat 16 k.toNat) := by
  unfold keyIndex
  split
  · next h => congr 1; ext; simp [Nat.mod_eq_of_lt h]
  · exact congrArg some (Fin.ext (by simp only [Fin.val_ofNat, Nat.mod_mod]))

/-- No key is pressed exactly when K is 0 (R253). -/
theorem State.lowestKey_none (s : State) : s.lowestKey = none ↔ ∀ k, s.key k = false := by
  simp [State.lowestKey]

/-- The key found is pressed, and every lower one is not (R253). -/
theorem State.lowestKey_some (s : State) (k : Fin 16) :
    s.lowestKey = some k ↔ s.key k = true ∧ ∀ j < k, s.key j = false := by
  unfold State.lowestKey
  rw [List.find?_eq_some_iff_getElem]
  constructor
  · rintro ⟨h1, n, hn, e, h2⟩
    refine ⟨by simpa using h1, fun j hj => ?_⟩
    have hk : k.val = n := by rw [← e]; simp
    have := h2 j.val (by have : j.val < k.val := hj; omega)
    simpa using this
  · rintro ⟨h1, h2⟩
    refine ⟨by simpa using h1, k.val, by simp, by simp, fun j hj => ?_⟩
    have hj' : j < 16 := by have := k.isLt; omega
    simpa using h2 ⟨j, hj'⟩ hj

/-! ### Flags (43_alu.md R193) -/

theorem flagByte_toNat (f : Bool) : (flagByte f).toNat = if f then 1 else 0 := by cases f <;> rfl

theorem carryOut_eq (a b : Byte) : carryOut a b = decide (256 ≤ a.toNat + b.toNat) := by
  simp only [carryOut, decide_eq_decide]; omega

end Sys2Proof.Machine
end

