-- ==== Sys2Proof/Laws/Exec.lean ====
section
/-!
SUPPORT. The inversion law of `exec`: everything that the next state of each instruction can be, its guards included,
so that a law over all instructions is a case analysis over this form and unfolds no meaning.
-/

namespace Sys2Proof.Machine

/-- The next state `t` that an instruction may answer from `s`, and what must hold for it. -/
def NextForm (i : Instr) (s t : State) : Prop :=
  match i with
  | .cls => t = s.advance.setFb Framebuffer.clear
  | .ret => ∃ k : Fin 16, s.sp.val = k.val + 1 ∧ t = s.advance.pop.setPc s.stack[k]
  | .sys _ => s.cfg.sysPolicy = .nop ∧ t = s.advance
  | .jp nnn => t = s.advance.setPc (zext16 nnn)
  | .call nnn => ∃ h : s.sp.val < 16, t = (s.push s.advance.pc h).setPc (zext16 nnn)
  | .seImm x kk => t = s.skipIf (s.reg x == kk)
  | .sneImm x kk => t = s.skipIf (s.reg x != kk)
  | .seReg x y => t = s.skipIf (s.reg x == s.reg y)
  | .ldImm x kk => t = s.advance.setReg x kk
  | .addImm x kk => t = s.advance.setReg x (s.reg x + kk)
  | .ldReg x y => t = s.advance.setReg x (s.reg y)
  | .orReg x y => t = s.advance.setReg x (s.reg x ||| s.reg y)
  | .andReg x y => t = s.advance.setReg x (s.reg x &&& s.reg y)
  | .xorReg x y => t = s.advance.setReg x (s.reg x ^^^ s.reg y)
  | .addReg x y => t = s.aluWrite x (s.reg x + s.reg y) (carryOut (s.reg x) (s.reg y))
  | .subReg x y => t = s.aluWrite x (s.reg x - s.reg y) (noBorrow (s.reg x) (s.reg y))
  | .shrReg x y => t = s.aluWrite x (s.shiftSource x y >>> 1) (shrOut (s.shiftSource x y))
  | .subnReg x y => t = s.aluWrite x (s.reg y - s.reg x) (noBorrow (s.reg y) (s.reg x))
  | .shlReg x y => t = s.aluWrite x (s.shiftSource x y <<< 1) (shlOut (s.shiftSource x y))
  | .sneReg x y => t = s.skipIf (s.reg x != s.reg y)
  | .ldI nnn => t = s.advance.setI (zext16 nnn)
  | .jpV0 nnn => t = s.advance.setPc (zext16 nnn + zext16 (s.reg 0x0))
  | .rnd x kk => t = s.advance.countDraw.setReg x (Config.rngDraw s.draws &&& kk)
  | .drw x y n => (n.toNat = 0 ∨ s.i.toNat + n.toNat ≤ 4096) ∧
      t = (s.advance.setFb (s.composite x y n).fb).setFlag (s.composite x y n).collide
  | .skp x => ∃ k, keyIndex s.cfg.keyIndexMode (s.reg x) = some k ∧ t = s.skipIf (s.key k == true)
  | .sknp x => ∃ k, keyIndex s.cfg.keyIndexMode (s.reg x) = some k ∧ t = s.skipIf (s.key k == false)
  | .ldVxDt x => t = s.advance.setReg x s.dt
  | .ldVxK x => (s.lowestKey = none ∧ t = s.advance.setPc s.pc) ∨
      ∃ k, s.lowestKey = some k ∧ t = s.advance.setReg x (BitVec.ofNat 8 k.val)
  | .ldDtVx x => t = s.advance.setDt (s.reg x)
  | .ldStVx x => t = s.advance.setSt (s.reg x)
  | .addIVx x => t = s.advance.setI (s.i + zext16 (s.reg x))
  | .ldFVx x => t = s.advance.setI (fontAddress (s.fontDigit x))
  | .ldBVx x => s.i.toNat + 3 ≤ 4096 ∧
      t = s.advance.setMem (s.mem.writeBytes s.i.toNat (bcdDigits (s.reg x)))
  | .ldMemVx x => s.i.toNat + (x.toNat + 1) ≤ 4096 ∧
      t = (s.advance.setMem (s.mem.writeBytes s.i.toNat (s.regBlock x))).setI (s.indexAfterBlock x)
  | .ldVxMem x => s.i.toNat + (x.toNat + 1) ≤ 4096 ∧
      t = (s.advance.setRegs (s.loadBlock x)).setI (s.indexAfterBlock x)

theorem State.skipOnKey_next {s t : State} {w : Word} {x : Nibble} {want : Bool}
    (h : s.skipOnKey w x want = .next t) :
    ∃ k, keyIndex s.cfg.keyIndexMode (s.reg x) = some k ∧ t = s.skipIf (s.key k == want) := by
  unfold State.skipOnKey at h
  split at h
  · next k hk => exact ⟨k, hk, by injection h with h; exact h.symm⟩
  · exact (State.raise_ne_next _ _ _ _ h).elim

/-- Everything the next state of an instruction can be. -/
theorem exec_next_form {i : Instr} {s t : State} (h : exec i s = .next t) : NextForm i s t := by
  cases i
  case ret =>
    simp only [exec, execRet] at h
    split at h
    · next h0 =>
      have := s.sp.isLt
      refine ⟨⟨s.sp.val - 1, by omega⟩, ?_, ?_⟩
      · simp; omega
      · injection h with h; exact h.symm
    · exact (State.raise_ne_next _ _ _ _ h).elim
  case sys =>
    simp only [exec, execSys] at h
    split at h
    · exact (State.raise_ne_next _ _ _ _ h).elim
    · next h0 => injection h with h; exact ⟨h0, h.symm⟩
  case call =>
    simp only [exec, execCall] at h
    split at h
    · next h0 => injection h with h; exact ⟨h0, h.symm⟩
    · exact (State.raise_ne_next _ _ _ _ h).elim
  case skp => exact State.skipOnKey_next h
  case sknp => exact State.skipOnKey_next h
  case drw => exact (State.checked_eq_next h).symm
  case ldBVx =>
    have := State.checked_eq_next h
    exact ⟨this.2.resolve_left (by decide), this.1⟩
  case ldMemVx =>
    have := State.checked_eq_next h
    exact ⟨this.2.resolve_left (Nat.succ_ne_zero _), this.1⟩
  case ldVxMem =>
    have := State.checked_eq_next h
    exact ⟨this.2.resolve_left (Nat.succ_ne_zero _), this.1⟩
  case ldVxK =>
    simp only [exec, execLdVxK] at h
    split at h
    · next hk => injection h with h; exact .inl ⟨hk, h.symm⟩
    · next k hk => injection h with h; exact .inr ⟨k, hk, h.symm⟩
  all_goals (injection h with h; exact h.symm)

/-! ### Errors (R271) -/

/-- The error `f` that an instruction may answer from `s`, and when. -/
def FaultForm (i : Instr) (s : State) (f : Fault) : Prop :=
  (∃ nnn, i = .sys nnn ∧ s.cfg.sysPolicy = .decodeError ∧ f = .decodeError s.pc (encode i)) ∨
    (i = .ret ∧ s.sp.val = 0 ∧ f = .stackUnderflow s.pc (encode i) s.sp) ∨
    (∃ nnn, i = .call nnn ∧ s.sp.val = 16 ∧ f = .stackOverflow s.pc (encode i) s.sp) ∨
    ((∃ x, i = .skp x ∨ i = .sknp x) ∧
      ∃ k : Byte, 15 < k.toNat ∧ f = .addressOutOfRange s.pc (encode i) k.toNat .keys) ∨
    ((∃ x y n, i = .drw x y n) ∨ ∃ x, i = .ldBVx x ∨ i = .ldMemVx x ∨ i = .ldVxMem x) ∧
      f = .addressOutOfRange s.pc (encode i) (max s.i.toNat 4096) .ram

theorem keyIndex_eq_none {m : KeyIndexMode} {k : Byte} (h : keyIndex m k = none) : 15 < k.toNat := by
  unfold keyIndex at h
  split at h
  · cases h
  · omega

theorem State.skipOnKey_fault {s : State} {w : Word} {x : Nibble} {want : Bool} {f : Fault}
    (h : s.skipOnKey w x want = .fault f) :
    ∃ k : Byte, 15 < k.toNat ∧ f = .addressOutOfRange s.pc w k.toNat .keys := by
  unfold State.skipOnKey at h
  split at h
  · cases h
  · next hk => injection h with h; exact ⟨s.reg x, keyIndex_eq_none hk, h.symm⟩

theorem State.checked_eq_fault {s : State} {w : Word} {base len : Nat} {next : State} {f : Fault}
    (h : s.checked w base len next = .fault f) : f = .addressOutOfRange s.pc w (max base 4096) .ram := by
  rcases s.checked_cases w base len next with ⟨_, e⟩ | ⟨_, _, e⟩
  · rw [e] at h; cases h
  · rw [e] at h; injection h with h; exact h.symm

/-- Everything the error of an instruction can be. -/
theorem exec_fault_form {i : Instr} {s : State} {f : Fault} (h : exec i s = .fault f) : FaultForm i s f := by
  unfold FaultForm
  cases i
  case sys nnn =>
    simp only [exec, execSys] at h
    split at h
    · next hp => injection h with h; exact .inl ⟨nnn, rfl, hp, h.symm⟩
    · cases h
  case ret =>
    simp only [exec, execRet] at h
    split at h
    · cases h
    · next h0 => injection h with h; exact .inr (.inl ⟨rfl, by omega, h.symm⟩)
  case call nnn =>
    simp only [exec, execCall] at h
    split at h
    · cases h
    · next h0 =>
      have := s.sp.isLt
      injection h with h
      exact .inr (.inr (.inl ⟨nnn, rfl, by omega, h.symm⟩))
  case skp x => exact .inr (.inr (.inr (.inl ⟨⟨x, .inl rfl⟩, State.skipOnKey_fault h⟩)))
  case sknp x => exact .inr (.inr (.inr (.inl ⟨⟨x, .inr rfl⟩, State.skipOnKey_fault h⟩)))
  case drw x y n => exact .inr (.inr (.inr (.inr ⟨.inl ⟨x, y, n, rfl⟩, State.checked_eq_fault h⟩)))
  case ldBVx x => exact .inr (.inr (.inr (.inr ⟨.inr ⟨x, .inl rfl⟩, State.checked_eq_fault h⟩)))
  case ldMemVx x => exact .inr (.inr (.inr (.inr ⟨.inr ⟨x, .inr (.inl rfl)⟩, State.checked_eq_fault h⟩)))
  case ldVxMem x => exact .inr (.inr (.inr (.inr ⟨.inr ⟨x, .inr (.inr rfl)⟩, State.checked_eq_fault h⟩)))
  case ldVxK =>
    simp only [exec, execLdVxK] at h
    split at h <;> cases h
  all_goals cases h

/-- Everything the error of a step can be: the fetch's, the decoder's, or the instruction's. -/
theorem step_fault_cases {s : State} {f : Fault} (h : step s = .fault f) :
    (0xFFE < s.pc.toNat ∧ f = .addressOutOfRange s.pc 0 (max s.pc.toNat 4096) .ram) ∨
      (s.pc.toNat ≤ 0xFFE ∧ ∃ w, w = joinBytes (s.readByte s.pc.toNat) (s.readByte (s.pc.toNat + 1)) ∧
        (((∃ e, decode w = .error e) ∧ f = .decodeError s.pc w) ∨ ∃ i, decode w = .ok i ∧ exec i s = .fault f)) := by
  by_cases hp : s.pc.toNat ≤ 0xFFE
  · refine .inr ⟨hp, _, rfl, ?_⟩
    unfold step at h
    rw [s.fetch_ok hp] at h
    dsimp only at h
    split at h
    · next e he => injection h with h; exact .inl ⟨⟨e, he⟩, h.symm⟩
    · next i hi => exact .inr ⟨i, hi, h⟩
  · unfold step at h
    rw [s.fetch_error (by omega)] at h
    injection h with h
    exact .inl ⟨by omega, h.symm⟩

end Sys2Proof.Machine
end

