-- ==== Sys2Proof/Laws/PerInstr.lean ====
section
/-!
SUPPORT. Per instruction: its encoding is selected by the match and mask of its row in spec 30_encoding.md R95.
-/

namespace Sys2Proof.Laws.EncodingRow

/-- `(word & mask) == match` for the word of the instruction (R95). -/
def Statement (i : Instr) : Prop := encode i &&& (opcodeRow i).2 = (opcodeRow i).1

theorem cls : Statement .cls := rfl
theorem ret : Statement .ret := rfl
theorem sys (nnn : Addr12) : Statement (.sys nnn) := wordNNN_mask _ _
theorem jp (nnn : Addr12) : Statement (.jp nnn) := wordNNN_mask _ _
theorem call (nnn : Addr12) : Statement (.call nnn) := wordNNN_mask _ _
theorem seImm (x : Nibble) (kk : Byte) : Statement (.seImm x kk) := wordXKK_mask _ _ _
theorem sneImm (x : Nibble) (kk : Byte) : Statement (.sneImm x kk) := wordXKK_mask _ _ _
theorem seReg (x y : Nibble) : Statement (.seReg x y) := wordXYN_mask_n _ _ _ _
theorem ldImm (x : Nibble) (kk : Byte) : Statement (.ldImm x kk) := wordXKK_mask _ _ _
theorem addImm (x : Nibble) (kk : Byte) : Statement (.addImm x kk) := wordXKK_mask _ _ _
theorem ldReg (x y : Nibble) : Statement (.ldReg x y) := wordXYN_mask_n _ _ _ _
theorem orReg (x y : Nibble) : Statement (.orReg x y) := wordXYN_mask_n _ _ _ _
theorem andReg (x y : Nibble) : Statement (.andReg x y) := wordXYN_mask_n _ _ _ _
theorem xorReg (x y : Nibble) : Statement (.xorReg x y) := wordXYN_mask_n _ _ _ _
theorem addReg (x y : Nibble) : Statement (.addReg x y) := wordXYN_mask_n _ _ _ _
theorem subReg (x y : Nibble) : Statement (.subReg x y) := wordXYN_mask_n _ _ _ _
theorem shrReg (x y : Nibble) : Statement (.shrReg x y) := wordXYN_mask_n _ _ _ _
theorem subnReg (x y : Nibble) : Statement (.subnReg x y) := wordXYN_mask_n _ _ _ _
theorem shlReg (x y : Nibble) : Statement (.shlReg x y) := wordXYN_mask_n _ _ _ _
theorem sneReg (x y : Nibble) : Statement (.sneReg x y) := wordXYN_mask_n _ _ _ _
theorem ldI (nnn : Addr12) : Statement (.ldI nnn) := wordNNN_mask _ _
theorem jpV0 (nnn : Addr12) : Statement (.jpV0 nnn) := wordNNN_mask _ _
theorem rnd (x : Nibble) (kk : Byte) : Statement (.rnd x kk) := wordXKK_mask _ _ _
theorem drw (x y n : Nibble) : Statement (.drw x y n) := wordXYN_mask _ _ _ _
theorem skp (x : Nibble) : Statement (.skp x) := wordXKK_mask_kk _ _ _
theorem sknp (x : Nibble) : Statement (.sknp x) := wordXKK_mask_kk _ _ _
theorem ldVxDt (x : Nibble) : Statement (.ldVxDt x) := wordXKK_mask_kk _ _ _
theorem ldVxK (x : Nibble) : Statement (.ldVxK x) := wordXKK_mask_kk _ _ _
theorem ldDtVx (x : Nibble) : Statement (.ldDtVx x) := wordXKK_mask_kk _ _ _
theorem ldStVx (x : Nibble) : Statement (.ldStVx x) := wordXKK_mask_kk _ _ _
theorem addIVx (x : Nibble) : Statement (.addIVx x) := wordXKK_mask_kk _ _ _
theorem ldFVx (x : Nibble) : Statement (.ldFVx x) := wordXKK_mask_kk _ _ _
theorem ldBVx (x : Nibble) : Statement (.ldBVx x) := wordXKK_mask_kk _ _ _
theorem ldMemVx (x : Nibble) : Statement (.ldMemVx x) := wordXKK_mask_kk _ _ _
theorem ldVxMem (x : Nibble) : Statement (.ldVxMem x) := wordXKK_mask_kk _ _ _

end Sys2Proof.Laws.EncodingRow
end

