-- ==== Sys2Proof/Laws/Reset.lean ====
section
/-!
SUPPORT. Laws of RAM after a reset (70_reset_and_hazards.md R301): what it reads as, and its canonical form.
-/

namespace Sys2Proof.Machine

/-- A table of bytes by address, its unlisted values left out, reads as the table. -/
theorem Memory.read_table (f : Nat → Byte) (l : List Nat) (b : Nat) :
    Memory.read ((l.map (fun a => (a, f a))).filter (fun c => c.2 != Memory.unlisted c.1)) b =
      if b ∈ l then f b else Memory.unlisted b := by
  induction l with
  | nil => simp [Memory.read]
  | cons a l ih =>
    by_cases h : f a = Memory.unlisted a
    · by_cases e : b = a
      · subst e; simp [h, ih]
      · simp [h, ih, e]
    · by_cases e : b = a
      · subst e; simp [h, Memory.read]
      · simp [h, ih, e, Memory.read, Ne.symm e]

/-- What RAM reads as after a reset (R34, R301). -/
theorem Memory.read_resetMemory (font : FontTable) (a : Nat) :
    Memory.read (resetMemory font) a = if a < 80 then Config.fontByte font a else 0 := by
  unfold resetMemory
  rw [Memory.read_table]
  by_cases h : a < 80 <;> simp [Config.fontSize, Memory.unlisted, h]

/-- A table of bytes at rising addresses, its unlisted values left out, is canonical. -/
theorem Memory.wfFrom_table (f : Nat → Byte) (n lo lo' : Nat) (h : lo' ≤ lo) (hn : lo + n ≤ Config.memSize) :
    Memory.wfFrom lo' (((List.range' lo n).map (fun a => (a, f a))).filter (fun c => c.2 != Memory.unlisted c.1)) =
      true := by
  induction n generalizing lo lo' with
  | zero => rfl
  | succ n ih =>
    by_cases e : f lo = Memory.unlisted lo
    · simpa [List.range'_succ, List.filter_cons, e] using ih (lo + 1) lo' (by omega) (by omega)
    · have := ih (lo + 1) (lo + 1) (Nat.le_refl _) (by omega)
      simp only [List.range'_succ, List.map_cons, List.filter_cons, bne_iff_ne, ne_eq, e, not_false_eq_true,
        if_true, Memory.wfFrom, this, Bool.and_true, Bool.and_eq_true, decide_eq_true_eq]
      exact ⟨⟨h, by omega⟩, trivial⟩

/-- RAM after a reset is canonical, whatever the font table. -/
theorem Memory.wf_resetMemory (font : FontTable) : (resetMemory font).wf = true := by
  unfold resetMemory Memory.wf
  rw [List.range_eq_range']
  exact Memory.wfFrom_table _ _ _ _ (Nat.le_refl _) (by decide)

end Sys2Proof.Machine
end

