-- ==== Sys2Proof/Laws/Runs.lean ====
section
/-!
SUPPORT. Laws of runs: an infinite run (46_timers_and_keys.md R255) is the union of the finite ones that begin it, so that
what holds after every list of transactions holds at every place of it.
-/

namespace Sys2Proof.Machine

@[simp] theorem stateAt_zero (sched : Schedule) (s : State) : stateAt sched s 0 = s := rfl

theorem stateAt_succ (sched : Schedule) (s : State) (n : Nat) :
    stateAt sched s (n + 1) = (transact (sched n) (stateAt sched s n)).1 := rfl

/-- Transactions one after the other: first the one list, then the other. -/
theorem transactAll_append (ts us : List Transaction) (s : State) :
    transactAll (ts ++ us) s = transactAll us (transactAll ts s) := by
  induction ts generalizing s with
  | nil => rfl
  | cons t ts ih => exact ih _

/-- The first `n` transactions of an infinite run are a finite run. -/
theorem stateAt_eq_transactAll (sched : Schedule) (s : State) (n : Nat) :
    stateAt sched s n = transactAll ((List.range n).map sched) s := by
  induction n with
  | zero => rfl
  | succ n ih =>
    rw [List.range_succ, List.map_append, transactAll_append, ← ih]
    rfl

/-- What every transaction that the schedule makes keeps holds at every place of an infinite run. -/
theorem stateAt_invariant {P : State → Prop} {sched : Schedule} {s : State} (h0 : P s)
    (h : ∀ n t, P t → P (transact (sched n) t).1) (n : Nat) : P (stateAt sched s n) := by
  induction n with
  | zero => exact h0
  | succ n ih => exact h n _ ih

/-- An infinite run from a reset passes through reachable states only. -/
theorem stateAt_reachable (straps : Config) (sched : Schedule) (n : Nat) :
    (stateAt sched (State.resetWith straps) n).Reachable :=
  ⟨straps, _, stateAt_eq_transactAll sched _ n⟩

end Sys2Proof.Machine
end

