-- ==== Sys2Proof/Laws/Sprite.lean ====
section
/-!
SUPPORT. The framebuffer and the compositor: cells after cell writes, and what drawing one row and several rows does
to every cell and to the collision flag (45_sprite.md R230 to R235).
-/

namespace Sys2Proof.Machine

/-! ### Cells -/

theorem Framebuffer.cell_setCell (fb : Framebuffer) (x a : Fin 64) (y b : Fin 32) (v : Bool) :
    (fb.setCell x y v).cell a b = if a = x ∧ b = y then v else fb.cell a b := by
  by_cases hx : a = x
  · subst hx
    by_cases hy : b = y
    · subst hy; simp [Framebuffer.cell, Framebuffer.setCell]
    · have : ¬ y.val = b.val := fun e => hy (Fin.ext e.symm)
      simp [Framebuffer.cell, Framebuffer.setCell, hy, this]
  · have : ¬ x.val = a.val := fun e => hx (Fin.ext e.symm)
    simp [Framebuffer.cell, Framebuffer.setCell, hx, this]

@[simp] theorem Framebuffer.cell_clear (a : Fin 64) (b : Fin 32) : Framebuffer.clear.cell a b = false := by
  simp [Framebuffer.cell, Framebuffer.clear]

/-- Framebuffers with the same cells are the same. -/
theorem Framebuffer.ext {f g : Framebuffer} (h : ∀ a b, f.cell a b = g.cell a b) : f = g := by
  apply Vector.ext
  intro a ha
  apply Vector.ext
  intro b hb
  exact h ⟨a, ha⟩ ⟨b, hb⟩

theorem Canvas.flip_cell (k : Canvas) (x a : Fin 64) (y b : Fin 32) :
    (k.flip x y).fb.cell a b = (k.fb.cell a b ^^ decide (a = x ∧ b = y)) := by
  by_cases h : a = x ∧ b = y
  · obtain ⟨rfl, rfl⟩ := h; simp [Canvas.flip, Framebuffer.cell_setCell]
  · simp [Canvas.flip, Framebuffer.cell_setCell, h]

theorem Canvas.flip_collide (k : Canvas) (x : Fin 64) (y : Fin 32) :
    (k.flip x y).collide = (k.collide || k.fb.cell x y) := rfl

/-! ### Wrapping (R232, R235) -/

/-- The eight columns of a sprite row are different (R235). -/
theorem wrapX_inj (x0 : Byte) (c d : Nat) (hc : c < 8) (hd : d < 8) (h : wrapX x0 c = wrapX x0 d) : c = d := by
  have := congrArg Fin.val h
  simp only [wrapX, Fin.val_ofNat] at this
  omega

/-- The rows of a sprite, at most 15, are different (R235). -/
theorem wrapY_inj (y0 : Byte) (r q : Nat) (hr : r < q + 32) (hq : q < r + 32) (h : wrapY y0 r = wrapY y0 q) :
    r = q := by
  have := congrArg Fin.val h
  simp only [wrapY, Fin.val_ofNat] at this
  omega

/-! ### One row -/

/-- Drawing the columns of a list without repeats: a cell of row y is inverted exactly when a set column lands on it,
and the collision is with the cells as they were. -/
theorem Canvas.drawColumns (x0 : Byte) (y : Fin 32) (row : Byte) (l : List Nat) (hl : l.Nodup)
    (h8 : ∀ c ∈ l, c < 8) (k : Canvas) :
    (∀ a b, (l.foldl (fun k c => if spriteBit row c then k.flip (wrapX x0 c) y else k) k).fb.cell a b =
      (k.fb.cell a b ^^ decide (b = y ∧ ∃ c ∈ l, spriteBit row c = true ∧ wrapX x0 c = a))) ∧
    ((l.foldl (fun k c => if spriteBit row c then k.flip (wrapX x0 c) y else k) k).collide =
      (k.collide || decide (∃ c ∈ l, spriteBit row c = true ∧ k.fb.cell (wrapX x0 c) y = true))) := by
  induction l generalizing k with
  | nil => simp
  | cons c l ih =>
    obtain ⟨hc, hl⟩ := List.nodup_cons.mp hl
    have h8c : c < 8 := h8 c (by simp)
    have h8l : ∀ d ∈ l, d < 8 := fun d hd => h8 d (by simp [hd])
    have other : ∀ d ∈ l, wrapX x0 d ≠ wrapX x0 c := fun d hd e =>
      hc (wrapX_inj x0 d c (h8l d hd) h8c e ▸ hd)
    rw [List.foldl_cons]
    by_cases hb : spriteBit row c = true
    · rw [if_pos hb]
      obtain ⟨ih1, ih2⟩ := ih hl h8l (k.flip (wrapX x0 c) y)
      refine ⟨fun a b => ?_, ?_⟩
      · rw [ih1, Canvas.flip_cell, Bool.xor_assoc]
        congr 1
        by_cases hby : b = y
        · by_cases ha : a = wrapX x0 c
          · subst ha
            have : ¬ ∃ d ∈ l, spriteBit row d = true ∧ wrapX x0 d = wrapX x0 c :=
              fun ⟨d, hd, _, e⟩ => other d hd e
            have hex : ∃ d ∈ c :: l, spriteBit row d = true ∧ wrapX x0 d = wrapX x0 c :=
              ⟨c, List.mem_cons_self, hb, rfl⟩
            simp only [hby, this, hex, and_self, and_false, decide_true, decide_false, Bool.xor_false]
          · have ha' : ¬ wrapX x0 c = a := fun e => ha e.symm
            simp [hby, ha, ha']
        · simp [hby]
      · rw [ih2, Canvas.flip_collide, Bool.or_assoc]
        congr 1
        have : ∀ d ∈ l, (k.flip (wrapX x0 c) y).fb.cell (wrapX x0 d) y = k.fb.cell (wrapX x0 d) y :=
          fun d hd => by simp [Canvas.flip_cell, other d hd]
        have e : (∃ d ∈ l, spriteBit row d = true ∧ (k.flip (wrapX x0 c) y).fb.cell (wrapX x0 d) y = true) ↔
            ∃ d ∈ l, spriteBit row d = true ∧ k.fb.cell (wrapX x0 d) y = true := by
          constructor
          · rintro ⟨d, hd, h1, h2⟩; exact ⟨d, hd, h1, this d hd ▸ h2⟩
          · rintro ⟨d, hd, h1, h2⟩; exact ⟨d, hd, h1, (this d hd).symm ▸ h2⟩
        simp only [e]
        by_cases hk : k.fb.cell (wrapX x0 c) y = true <;> simp [hk, hb]
    · rw [if_neg hb]
      obtain ⟨ih1, ih2⟩ := ih hl h8l k
      refine ⟨fun a b => ?_, ?_⟩
      · rw [ih1]; simp [hb]
      · rw [ih2]; simp [hb]

/-- One sprite row (R230, R233): what it does to every cell. -/
theorem Canvas.drawRow_cell (k : Canvas) (x0 : Byte) (y : Fin 32) (row : Byte) (a : Fin 64) (b : Fin 32) :
    (k.drawRow x0 y row).fb.cell a b =
      (k.fb.cell a b ^^ decide (b = y ∧ ∃ c ∈ List.range 8, spriteBit row c = true ∧ wrapX x0 c = a)) := by
  have := (Canvas.drawColumns x0 y row (List.range 8) List.nodup_range (by simp) k).1 a b
  exact this

/-- One sprite row (R230, R233): when it collides. -/
theorem Canvas.drawRow_collide (k : Canvas) (x0 : Byte) (y : Fin 32) (row : Byte) :
    (k.drawRow x0 y row).collide =
      (k.collide || decide (∃ c ∈ List.range 8, spriteBit row c = true ∧ k.fb.cell (wrapX x0 c) y = true)) := by
  have := (Canvas.drawColumns x0 y row (List.range 8) List.nodup_range (by simp) k).2
  exact this

/-! ### Several rows -/

theorem xor_decide_eq_true (u : Bool) (p : Prop) [Decidable p] : ((u ^^ decide p) = true) ↔ (u = true ↔ ¬ p) := by
  cases u <;> simp

/-- Rows r, r + 1, .. of a sprite, fewer than 33 of them (R230, R235): what they do to every cell. -/
theorem Canvas.drawRows_cell (x0 y0 : Byte) (rows : List Byte) (r : Nat) (k : Canvas) (a : Fin 64) (b : Fin 32)
    (h : rows.length ≤ 32) :
    ((Canvas.drawRows k x0 y0 r rows).fb.cell a b = true) ↔
      (k.fb.cell a b = true ↔ ¬ ∃ q, ∃ hq : q < rows.length, wrapY y0 (r + q) = b ∧
        ∃ c ∈ List.range 8, spriteBit rows[q] c = true ∧ wrapX x0 c = a) := by
  induction rows generalizing r k with
  | nil => simp [Canvas.drawRows]
  | cons row rows ih =>
    simp only [List.length_cons] at h
    rw [Canvas.drawRows, ih _ _ (by omega), Canvas.drawRow_cell, xor_decide_eq_true]
    by_cases hb : b = wrapY y0 r
    · have later : ¬ ∃ q, ∃ hq : q < rows.length, wrapY y0 (r + 1 + q) = b ∧
          ∃ c ∈ List.range 8, spriteBit rows[q] c = true ∧ wrapX x0 c = a := by
        rintro ⟨q, hq, e, _⟩
        have := wrapY_inj y0 (r + 1 + q) r (by omega) (by omega) (e.trans hb)
        omega
      have this' : (∃ q, ∃ hq : q < (row :: rows).length, wrapY y0 (r + q) = b ∧
          ∃ c ∈ List.range 8, spriteBit (row :: rows)[q] c = true ∧ wrapX x0 c = a) ↔
          ∃ c ∈ List.range 8, spriteBit row c = true ∧ wrapX x0 c = a := by
        constructor
        · rintro ⟨q, hq, e, hc⟩
          have : r + q = r := wrapY_inj y0 (r + q) r (by simp at hq; omega) (by omega) (e.trans hb)
          have : q = 0 := by omega
          subst this; exact hc
        · intro hc; exact ⟨0, by simp, by simp [hb], hc⟩
      rw [this', eq_false later, not_false_eq_true, iff_true, and_iff_right hb]
    · have this' : (∃ q, ∃ hq : q < (row :: rows).length, wrapY y0 (r + q) = b ∧
          ∃ c ∈ List.range 8, spriteBit (row :: rows)[q] c = true ∧ wrapX x0 c = a) ↔
          ∃ q, ∃ hq : q < rows.length, wrapY y0 (r + 1 + q) = b ∧
            ∃ c ∈ List.range 8, spriteBit rows[q] c = true ∧ wrapX x0 c = a := by
        constructor
        · rintro ⟨q, hq, e, hc⟩
          cases q with
          | zero => exact absurd e.symm hb
          | succ q => exact ⟨q, by simpa using hq, by rw [← e]; congr 1; omega, hc⟩
        · rintro ⟨q, hq, e, hc⟩
          exact ⟨q + 1, by simpa using hq, by rw [← e]; congr 1; omega, hc⟩
      rw [this', show (b = wrapY y0 r ∧ ∃ c ∈ List.range 8, spriteBit row c = true ∧ wrapX x0 c = a) = False from
        eq_false (fun e => hb e.1), not_false_eq_true, iff_true]

/-- Rows r, r + 1, .. of a sprite, fewer than 33 of them (R233, R235): they collide exactly when a set pixel falls on
a cell that was set before the draw. -/
theorem Canvas.drawRows_collide (x0 y0 : Byte) (rows : List Byte) (r : Nat) (k : Canvas) (h : rows.length ≤ 32) :
    ((Canvas.drawRows k x0 y0 r rows).collide = true) ↔
      (k.collide = true ∨ ∃ q, ∃ hq : q < rows.length, ∃ c ∈ List.range 8, spriteBit rows[q] c = true ∧
        k.fb.cell (wrapX x0 c) (wrapY y0 (r + q)) = true) := by
  induction rows generalizing r k with
  | nil => simp [Canvas.drawRows]
  | cons row rows ih =>
    simp only [List.length_cons] at h
    have kept : ∀ q, q < rows.length → ∀ a,
        (k.drawRow x0 (wrapY y0 r) row).fb.cell a (wrapY y0 (r + 1 + q)) = k.fb.cell a (wrapY y0 (r + 1 + q)) := by
      intro q hq a
      have : ¬ wrapY y0 (r + 1 + q) = wrapY y0 r := fun e => by
        have := wrapY_inj y0 (r + 1 + q) r (by omega) (by omega) e
        omega
      rw [Canvas.drawRow_cell]; simp [this]
    rw [Canvas.drawRows, ih _ _ (by omega), Canvas.drawRow_collide, Bool.or_eq_true, decide_eq_true_eq, or_assoc]
    apply or_congr_right
    constructor
    · rintro (⟨c, hc, h1, h2⟩ | ⟨q, hq, c, hc, h1, h2⟩)
      · exact ⟨0, by simp, c, hc, h1, h2⟩
      · refine ⟨q + 1, by simpa using hq, c, hc, h1, ?_⟩
        rw [kept q hq] at h2
        rw [← h2]; congr 2; omega
    · rintro ⟨q, hq, c, hc, h1, h2⟩
      cases q with
      | zero => exact .inl ⟨c, hc, h1, h2⟩
      | succ q =>
        have hq : q < rows.length := by simpa using hq
        refine .inr ⟨q, hq, c, hc, h1, ?_⟩
        rw [kept q hq, ← h2]; congr 2; omega

end Sys2Proof.Machine
end

