-- ==== Sys2Proof/Tests/Slice0.lean ====
section
/-!
SUPPORT. Tests: the decoding of a word of every row of spec 30_encoding.md R95, the words spec/95_test_vectors.md
spells out, one step each of that file's vectors (the vector's number stands beside each test), and the witnesses
that the hypotheses of the statements can be met.
-/

namespace Sys2Proof.Tests

open Sys2Proof.Machine

/-! ### WellFormed: each check refuses an ill-formed term (R103) -/

theorem test_sys_0E0_is_not_sys : Instr.wellFormed (.sys 0x0E0) = false := by decide
theorem test_sys_0EE_is_not_sys : Instr.wellFormed (.sys 0x0EE) = false := by decide
theorem test_sys_000_is_sys : Instr.wellFormed (.sys 0x000) = true := by decide

/-! ### Decoding: a word of every row, its fields told apart (R90, R95, R101) -/

theorem test_decode_cls : decode 0x00E0 = .ok .cls := by decide
theorem test_decode_ret : decode 0x00EE = .ok .ret := by decide
theorem test_decode_sys : decode 0x0123 = .ok (.sys 0x123) := by decide
theorem test_decode_sys_000 : decode 0x0000 = .ok (.sys 0x000) := by decide
theorem test_decode_sys_1E0 : decode 0x01E0 = .ok (.sys 0x1E0) := by decide
theorem test_decode_jp : decode 0x1234 = .ok (.jp 0x234) := by decide
theorem test_decode_call : decode 0x2300 = .ok (.call 0x300) := by decide
theorem test_decode_seImm : decode 0x3342 = .ok (.seImm 0x3 0x42) := by decide
theorem test_decode_sneImm : decode 0x4342 = .ok (.sneImm 0x3 0x42) := by decide
theorem test_decode_seReg : decode 0x5120 = .ok (.seReg 0x1 0x2) := by decide
theorem test_decode_ldImm : decode 0x6103 = .ok (.ldImm 0x1 0x03) := by decide
theorem test_decode_addImm : decode 0x7203 = .ok (.addImm 0x2 0x03) := by decide
theorem test_decode_ldReg : decode 0x80F0 = .ok (.ldReg 0x0 0xF) := by decide
theorem test_decode_orReg : decode 0x8011 = .ok (.orReg 0x0 0x1) := by decide
theorem test_decode_andReg : decode 0x8012 = .ok (.andReg 0x0 0x1) := by decide
theorem test_decode_xorReg : decode 0x8013 = .ok (.xorReg 0x0 0x1) := by decide
theorem test_decode_addReg : decode 0x8014 = .ok (.addReg 0x0 0x1) := by decide
theorem test_decode_subReg : decode 0x8F15 = .ok (.subReg 0xF 0x1) := by decide
theorem test_decode_shrReg : decode 0x8016 = .ok (.shrReg 0x0 0x1) := by decide
theorem test_decode_subnReg : decode 0x8017 = .ok (.subnReg 0x0 0x1) := by decide
theorem test_decode_shlReg : decode 0x801E = .ok (.shlReg 0x0 0x1) := by decide
theorem test_decode_sneReg : decode 0x9120 = .ok (.sneReg 0x1 0x2) := by decide
theorem test_decode_ldI : decode 0xA2F0 = .ok (.ldI 0x2F0) := by decide
theorem test_decode_jpV0 : decode 0xB300 = .ok (.jpV0 0x300) := by decide
theorem test_decode_rnd : decode 0xC00F = .ok (.rnd 0x0 0x0F) := by decide
theorem test_decode_drw : decode 0xD015 = .ok (.drw 0x0 0x1 0x5) := by decide
theorem test_decode_skp : decode 0xE59E = .ok (.skp 0x5) := by decide
theorem test_decode_sknp : decode 0xE5A1 = .ok (.sknp 0x5) := by decide
theorem test_decode_ldVxDt : decode 0xF107 = .ok (.ldVxDt 0x1) := by decide
theorem test_decode_ldVxK : decode 0xF50A = .ok (.ldVxK 0x5) := by decide
theorem test_decode_ldDtVx : decode 0xF115 = .ok (.ldDtVx 0x1) := by decide
theorem test_decode_ldStVx : decode 0xF218 = .ok (.ldStVx 0x2) := by decide
theorem test_decode_addIVx : decode 0xF41E = .ok (.addIVx 0x4) := by decide
theorem test_decode_ldFVx : decode 0xF029 = .ok (.ldFVx 0x0) := by decide
theorem test_decode_ldBVx : decode 0xF333 = .ok (.ldBVx 0x3) := by decide
theorem test_decode_ldMemVx : decode 0xF255 = .ok (.ldMemVx 0x2) := by decide
theorem test_decode_ldVxMem : decode 0xF265 = .ok (.ldVxMem 0x2) := by decide

/-- F11 to F17: words that match no row, illegal under either policy (R96). -/
theorem test_illegal_words :
    ([0x5121, 0x8018, 0x800F, 0x9121, 0xE09F, 0xF0FF, 0xF000] : List Word).all (illegalWord .nop) = true := by decide

/-- F8, F9: a SYS word is illegal under decode_error and legal under nop (R96). -/
theorem test_sys_word_by_policy :
    illegalWord .decodeError 0x00E1 = true ∧ illegalWord .nop 0x00E1 = false := by decide

theorem test_decodeTableWord : decodeTableWord 16 0xD015 = some (.drw 0x0 0x1 0x5) := by decide
theorem test_decodeBytes_truncated : decodeBytes [0x60] = .error .truncated := by decide

/-! ### Steps -/

/-- A field of the state after one step of the word `w` from `s`, if the step answers one. -/
def afterStep (s : State) (w : Nat) (f : State → α) : Option α :=
  match step (s.withFetchWord 16 w) with
  | .next t => some (f t)
  | .fault _ => none
  | .refused _ => none

/-- The error one step of the word `w` from `s` answers, if any. -/
def errorOf (s : State) (w : Nat) : Option Fault :=
  match step (s.withFetchWord 16 w) with
  | .fault r => some r
  | .next _ => none
  | .refused _ => none

/-- The reset state with two registers set. -/
def withRegs (x : Nibble) (a : Byte) (y : Nibble) (b : Byte) : State := (State.reset.setReg x a).setReg y b

/-- The reset state with given straps. -/
def withStraps (s : State) (f : Config → Config) : State := { s with cfg := f s.cfg }

/-- J1. -/
theorem test_cls : afterStep (State.reset.setFb (Framebuffer.clear.setCell 3 4 true)) 0x00E0
    (fun t => (t.fb.cell 3 4, t.pc)) = some (false, 0x202) := by decide
/-- J2. -/
theorem test_ret : afterStep ((State.reset.push 0x204 (by decide)).setPc 0x300) 0x00EE
    (fun t => (t.sp, t.pc, t.stack[0])) = some (0, 0x204, 0x204) := by decide
/-- J3. -/
theorem test_ret_underflow : errorOf (State.reset.setPc 0x300) 0x00EE = some (.stackUnderflow 0x300 0x00EE 0) := by
  decide
/-- J14. -/
theorem test_sys_decodeError : errorOf (State.reset.setPc 0x206) 0x0000 = some (.decodeError 0x206 0x0000) := by decide
/-- J15. -/
theorem test_sys_nop : afterStep (withStraps (State.reset.setPc 0x206) (fun c => { c with sysPolicy := .nop })) 0x0000
    (fun t => t.pc) = some 0x208 := by decide
/-- J4. -/
theorem test_jp : afterStep State.reset 0x1234 (fun t => t.pc) = some 0x234 := by decide
/-- J8. -/
theorem test_call : afterStep { State.reset with sp := 15, pc := 0x202 } 0x2300
    (fun t => (t.stack[15], t.sp, t.pc)) = some (0x204, 16, 0x300) := by decide
/-- J9. -/
theorem test_call_overflow : errorOf { State.reset with sp := 16, pc := 0x202 } 0x2300 =
    some (.stackOverflow 0x202 0x2300 16) := by decide
/-- J12. -/
theorem test_jpV0 : afterStep (State.reset.setReg 0 0xFF) 0xBFFF (fun t => t.pc) = some 0x10FE := by decide
/-- J13. -/
theorem test_jpV0_ignores_x : afterStep (State.reset.setReg 3 0x50) 0xB300 (fun t => t.pc) = some 0x300 := by decide
/-- K1. -/
theorem test_seImm_skips : afterStep (State.reset.setReg 3 0x42) 0x3342 (fun t => t.pc) = some 0x204 := by decide
/-- K2. -/
theorem test_seImm_goes_on : afterStep (State.reset.setReg 3 0x42) 0x3343 (fun t => t.pc) = some 0x202 := by decide
/-- K3. -/
theorem test_sneImm_goes_on : afterStep (State.reset.setReg 3 0x42) 0x4342 (fun t => t.pc) = some 0x202 := by decide
/-- K4. -/
theorem test_sneImm_skips : afterStep (State.reset.setReg 3 0x42) 0x4300 (fun t => t.pc) = some 0x204 := by decide
/-- K5. -/
theorem test_seReg_skips : afterStep (withRegs 1 7 2 7) 0x5120 (fun t => t.pc) = some 0x204 := by decide
/-- K6. -/
theorem test_seReg_goes_on : afterStep (withRegs 1 7 2 8) 0x5120 (fun t => t.pc) = some 0x202 := by decide
/-- K8. -/
theorem test_sneReg_skips : afterStep (withRegs 1 7 2 8) 0x9120 (fun t => t.pc) = some 0x204 := by decide
/-- K9. -/
theorem test_sneReg_goes_on : afterStep (withRegs 1 7 2 7) 0x9120 (fun t => t.pc) = some 0x202 := by decide
/-- K10. -/
theorem test_skp : afterStep ((State.reset.setReg 5 3).setKeys 0x0008) 0xE59E (fun t => t.pc) = some 0x204 := by decide
/-- K14. -/
theorem test_skp_bad_key : errorOf ((State.reset.setReg 5 0x13).setKeys 0x0008) 0xE59E =
    some (.addressOutOfRange 0x200 0xE59E 0x13 .keys) := by decide
/-- K15. -/
theorem test_skp_low_nibble : afterStep
    (withStraps ((State.reset.setReg 5 0x13).setKeys 0x0008) (fun c => { c with keyIndexMode := .lowNibble })) 0xE59E
    (fun t => t.pc) = some 0x204 := by decide
/-- K12. -/
theorem test_sknp_skips : afterStep (State.reset.setReg 5 3) 0xE5A1 (fun t => t.pc) = some 0x204 := by decide
/-- K13. -/
theorem test_sknp_goes_on : afterStep ((State.reset.setReg 5 3).setKeys 0x0008) 0xE5A1 (fun t => t.pc) =
    some 0x202 := by decide
/-- A1. -/
theorem test_ldImm : afterStep State.reset 0x6005 (fun t => (t.reg 0, t.pc)) = some (5, 0x202) := by decide
/-- A2. -/
theorem test_ldImm_vf : afterStep (State.reset.setReg 0xF 1) 0x6F00 (fun t => t.reg 0xF) = some 0 := by decide
/-- A3. -/
theorem test_addImm_wraps : afterStep (State.reset.setReg 2 0xFE) 0x7203 (fun t => (t.reg 2, t.reg 0xF)) =
    some (1, 0) := by decide
/-- A6. -/
theorem test_ldReg : afterStep (State.reset.setReg 0xF 0x77) 0x80F0 (fun t => (t.reg 0, t.reg 0xF)) =
    some (0x77, 0x77) := by decide
/-- A7. -/
theorem test_orReg : afterStep ((withRegs 0 0x0F 1 0xF0).setReg 0xF 1) 0x8011 (fun t => (t.reg 0, t.reg 0xF)) =
    some (0xFF, 1) := by decide
/-- A8. -/
theorem test_andReg : afterStep ((withRegs 0 0x3C 1 0x0F).setReg 0xF 1) 0x8012 (fun t => (t.reg 0, t.reg 0xF)) =
    some (0x0C, 1) := by decide
/-- A9. -/
theorem test_xorReg : afterStep (withRegs 0 0xFF 1 0x0F) 0x8013 (fun t => t.reg 0) = some 0xF0 := by decide
/-- A12. -/
theorem test_addReg_carry : afterStep (withRegs 0 0xFF 1 0x01) 0x8014 (fun t => (t.reg 0, t.reg 0xF)) =
    some (0, 1) := by decide
/-- A16. -/
theorem test_addReg_vf_is_flag : afterStep (withRegs 0xF 0x01 1 0xFF) 0x8F14 (fun t => t.reg 0xF) = some 1 := by decide
/-- A19. -/
theorem test_subReg_borrow : afterStep (withRegs 0 3 1 5) 0x8015 (fun t => (t.reg 0, t.reg 0xF)) = some (0xFE, 0) := by
  decide
/-- A20. -/
theorem test_subReg_equal : afterStep (withRegs 0 7 1 7) 0x8015 (fun t => (t.reg 0, t.reg 0xF)) = some (0, 1) := by
  decide
/-- A26. -/
theorem test_shrReg : afterStep (State.reset.setReg 0 0xFF) 0x8006 (fun t => (t.reg 0, t.reg 0xF)) =
    some (0x7F, 1) := by decide
/-- A28. -/
theorem test_shrReg_vy : afterStep (withStraps (withRegs 0 0 1 3) (fun c => { c with shiftSource := .vy })) 0x8016
    (fun t => (t.reg 0, t.reg 0xF, t.reg 1)) = some (1, 1, 3) := by decide
/-- A30. -/
theorem test_subnReg : afterStep (withRegs 0 3 1 5) 0x8017 (fun t => (t.reg 0, t.reg 0xF)) = some (2, 1) := by decide
/-- A31. -/
theorem test_subnReg_borrow : afterStep (withRegs 0 5 1 3) 0x8017 (fun t => (t.reg 0, t.reg 0xF)) =
    some (0xFE, 0) := by decide
/-- A33. -/
theorem test_shlReg : afterStep (State.reset.setReg 0 0x81) 0x800E (fun t => (t.reg 0, t.reg 0xF)) = some (2, 1) := by
  decide
/-- A36. -/
theorem test_shlReg_vy : afterStep (withStraps (withRegs 0 0 1 0x81) (fun c => { c with shiftSource := .vy })) 0x801E
    (fun t => (t.reg 0, t.reg 0xF, t.reg 1)) = some (2, 1, 0x81) := by decide
/-- A38: KK = 0 gives 0 whatever the draw. -/
theorem test_rnd_masked : afterStep (State.reset.setReg 0 7) 0xC000 (fun t => (t.reg 0, t.pc)) = some (0, 0x202) := by
  change some (Config.rngDraw 0 &&& 0#8, (0x202 : Word)) = some (0#8, 0x202)
  rw [BitVec.and_zero]
/-- A39: KK = FF gives the whole byte drawn. -/
theorem test_rnd_whole : afterStep State.reset 0xC0FF (fun t => t.reg 0) = some (Config.rngDraw 0 &&& 0xFF) := by rfl
/-- M1. -/
theorem test_ldI : afterStep State.reset 0xA2F0 (fun t => (t.i, t.pc)) = some (0x2F0, 0x202) := by decide
/-- M3. -/
theorem test_addIVx : afterStep ((State.reset.setReg 0 1).setI 0xFFF) 0xF01E (fun t => (t.i, t.reg 0xF)) =
    some (0x1000, 0) := by decide
/-- M4. -/
theorem test_addIVx_wraps : afterStep ((State.reset.setReg 0 1).setI 0xFFFF) 0xF01E (fun t => t.i) = some 0 := by decide
/-- M6. -/
theorem test_ldFVx : afterStep (State.reset.setReg 0 0x1A) 0xF029 (fun t => t.i) = some 0x032 := by decide
/-- M6, full_byte. -/
theorem test_ldFVx_full_byte : afterStep
    (withStraps (State.reset.setReg 0 0x1A) (fun c => { c with fontAddrMode := .fullByte })) 0xF029
    (fun t => t.i) = some 0x082 := by decide
/-- M9. -/
theorem test_ldBVx : afterStep ((State.reset.setReg 3 123).setI 0x400) 0xF333
    (fun t => (t.readByte 0x400, t.readByte 0x401, t.readByte 0x402, t.i)) = some (1, 2, 3, 0x400) := by decide
/-- M12. -/
theorem test_ldBVx_out_of_range : errorOf ((State.reset.setReg 0 1).setI 0xFFE) 0xF033 =
    some (.addressOutOfRange 0x200 0xF033 0x1000 .ram) := by decide
/-- M15, with V0..V2 = 1, 2, 3. -/
theorem test_ldMemVx_inc : afterStep
    (withStraps ((withRegs 0 1 1 2).setReg 2 3 |>.setI 0x500) (fun c => { c with loadStoreIncI := true })) 0xF255
    (fun t => (t.readByte 0x500, t.readByte 0x501, t.readByte 0x502, t.readByte 0x503, t.i)) =
    some (1, 2, 3, 0, 0x503) := by decide
/-- M18. -/
theorem test_ldMemVx_out_of_range : errorOf (State.reset.setI 0xFF1) 0xFF55 =
    some (.addressOutOfRange 0x200 0xFF55 0x1000 .ram) := by decide
/-- M21: the glyph for 0. -/
theorem test_ldVxMem : afterStep State.reset 0xF465
    (fun t => (t.reg 0, t.reg 1, t.reg 2, t.reg 3, t.reg 4, t.reg 5, t.i)) =
    some (0xF0, 0x90, 0x90, 0x90, 0xF0, 0, 0) := by decide
/-- M22. -/
theorem test_ldVxMem_out_of_range : errorOf (State.reset.setI 0x1000) 0xF065 =
    some (.addressOutOfRange 0x200 0xF065 0x1000 .ram) := by decide
/-- D4: the glyph for 0 wraps from row 31 to row 0. -/
theorem test_drw_wraps : afterStep (withRegs 0 0 1 30) 0xD015
    (fun t => ([(0, 30), (3, 30), (4, 30), (0, 31), (1, 31), (3, 31), (0, 0), (0, 1), (3, 2), (0, 3)].map
      (fun c => t.fb.cell c.1 c.2), t.reg 0xF)) =
    some ([true, true, false, true, false, true, true, true, true, false], 0) := by decide
/-- D6. -/
theorem test_drw_collides : afterStep
    (((State.reset.setI 0x300).setMem [(0x300, 0xC0)]).setFb (Framebuffer.clear.setCell 0 0 true)) 0xD011
    (fun t => (t.fb.cell 0 0, t.fb.cell 1 0, t.reg 0xF, t.pc)) = some (false, true, 1, 0x202) := by decide
/-- T1. -/
theorem test_ldVxDt : afterStep (State.reset.setDt 0x3C) 0xF107 (fun t => (t.reg 1, t.dt)) = some (0x3C, 0x3C) := by
  decide
/-- T2. -/
theorem test_ldDtVx : afterStep (State.reset.setReg 1 0x3C) 0xF115 (fun t => t.dt) = some 0x3C := by decide
/-- T4. -/
theorem test_ldStVx : afterStep (State.reset.setReg 2 5) 0xF218 (fun t => (t.st, soundActive t)) = some (5, true) := by
  decide
/-- T7. -/
theorem test_ldVxK_waits : afterStep (State.reset.setReg 5 9) 0xF50A (fun t => (t.pc, t.reg 5)) = some (0x200, 9) := by
  decide
/-- T9. -/
theorem test_ldVxK_lowest : afterStep (State.reset.setKeys 0x0014) 0xF50A (fun t => (t.pc, t.reg 5)) =
    some (0x202, 2) := by decide

/-! ### Fetch (F2 to F6) -/

/-- F2. -/
theorem test_fetch_odd : afterStep (State.reset.setPc 0x201) 0x6005 (fun t => (t.reg 0, t.pc)) = some (5, 0x203) := by
  decide
/-- F3. -/
theorem test_fetch_last : afterStep (State.reset.setPc 0xFFE) 0x6001 (fun t => (t.reg 0, t.pc)) =
    some (1, 0x1000) := by decide
/-- F6: the fetch error wins. -/
theorem test_fetch_past_end : errorOf ((State.reset.setPc 0xFFF).setMem [(0xFFF, 0x51)]) 0 =
    some (.addressOutOfRange 0xFFF 0 0x1000 .ram) := by decide
/-- F5. -/
theorem test_fetch_above : errorOf (State.reset.setPc 0x1000) 0 =
    some (.addressOutOfRange 0x1000 0 0x1000 .ram) := by decide

/-! ### Host ports (H1 to H9) -/

/-- H1: under the default straps, host_reset is the reset state. -/
theorem test_resetWith_default : State.resetWith Config.default = State.reset := by decide
/-- H1: the font bytes at both ends, and zero after them. -/
theorem test_reset_font : [0x000, 0x001, 0x04B, 0x04C, 0x04F, 0x050, 0xFFF].map State.reset.readByte =
    [0xF0, 0x90, 0xF0, 0x80, 0x80, 0, 0] := by decide
/-- H4. -/
theorem test_setKeys : (List.finRange 16).filter (fun k => (hostSetKeys 0x8001 State.reset).key k) = [0, 15] := by
  decide
/-- H5. -/
theorem test_tick : (fun t : State => (t.dt, t.st)) (hostTick (State.reset.setDt 2)) = (1, 0) := by decide
/-- H6. -/
theorem test_tick_sound : (fun t : State => (t.dt, t.st, soundActive t)) (hostTick (State.reset.setSt 1)) =
    (0, 0, false) := by decide
/-- H7. -/
theorem test_skip : (hostSkip (State.reset.setPc 0x206)).pc = 0x208 := by decide
/-- H8. -/
theorem test_peek : hostPeek State.reset = ⟨Vector.replicate 16 0, 0, 0x200, 0, Vector.replicate 16 0, 0, 0, 0⟩ := by
  decide
/-- H9. -/
theorem test_step_unloaded : (transact .step State.reset).2 = .err ⟨1, 0x200, 0x0000, none, none, none⟩ := by decide
/-- R271: `err_code` is 0 for a step that returned Ok and 3 for a StackUnderflow; host_peek has none. -/
theorem test_errCode : (errCode (transact .step (State.reset.withFetchWord 16 0x6005)).2,
    errCode (transact .step (State.reset.withFetchWord 16 0x00EE)).2, errCode (transact .hostPeek State.reset).2) =
    (some 0, some 3, none) := by decide
/-- The source's ROM of R101 lies at 0x200 after boot, byte 0 first (R69, R303). -/
theorem test_boot : (boot Config.default [0x60, 0x05, 0x61] State.reset).map
    (fun t => (t.pc, t.readByte 0x200, t.readByte 0x201, t.readByte 0x202, t.readByte 0x203)) =
    some (0x200, 0x60, 0x05, 0x61, 0) := by decide

/-! ### Witnesses: states and operands that meet the hypotheses of each statement, at the boundaries of its clauses -/

open Sys2Proof.Claims

/-- Whether an instruction answered a next state. -/
def isNext (r : StepResult) : Bool :=
  match r with
  | .next _ => true
  | .fault _ => false
  | .refused _ => false

/-- The error an instruction or a step answered, if any. -/
def faultOf (r : StepResult) : Option Fault :=
  match r with
  | .fault f => some f
  | .next _ => none
  | .refused _ => none

/-- The next state an instruction or a step answered, if any. -/
def nextOf (r : StepResult) : Option State :=
  match r with
  | .next t => some t
  | .fault _ => none
  | .refused _ => none

/-- The reset state at an address where the word `w` is the next instruction. -/
def atWord (pc : Word) (w : Nat) : State := (State.reset.setPc pc).withFetchWord 16 w

/-- The reset state with `n` active frames, each holding the address `a`. -/
def withFrames (n : Fin 17) (a : Word) : State := { State.reset with sp := n, stack := Vector.replicate 16 a }

theorem witness_DecodeOfEncodeIsTheInstruction :
    [Instr.sys 0x0DF, .sys 0x0E1, .sys 0x0EF, .sys 0xFFF, .drw 0xF 0xF 0xF].all Instr.wellFormed = true := by decide
theorem witness_EncodeOfDecodeIsTheWord :
    decode 0x0FFF = .ok (.sys 0xFFF) ∧ decode 0xDFFF = .ok (.drw 0xF 0xF 0xF) := by decide
/-- 0x00E0 matches both CLS's row and SYS's (R103). -/
theorem witness_DecodeSelectsByMatchAndMask :
    decode 0x00E0 = .ok .cls ∧ 0x00E0 &&& (opcodeRow (.sys 0x000)).2 = (opcodeRow (.sys 0x000)).1 := by decide
theorem witness_DecodeErrorExactlyOnIllegalWords :
    (atWord 0xFFE 0x5121).pc.toNat ≤ 0xFFE ∧ wordAtPc (atWord 0xFFE 0x5121) = 0x5121 ∧
      illegalWord .decodeError 0x5121 = true ∧ faultOf (step (atWord 0xFFE 0x5121)) = some (.decodeError 0xFFE 0x5121) ∧
      faultOf (step (atWord 0xFFE 0x0000)) = some (.decodeError 0xFFE 0x0000) := by decide
theorem witness_FetchChecksAndCombinesBigEndian :
    4095 < (State.reset.setPc 0x1000).pc.toNat ∧ (State.reset.setPc 0xFFF).pc.toNat = 4095 ∧
      (atWord 0xFFE 0x6005).pc.toNat < 4095 ∧ (atWord 0xFFE 0x6005).fetch.toOption = some 0x6005 := by decide
theorem witness_StepRunsTheDecodedInstruction :
    (atWord 0xFFE 0xF265).pc.toNat ≤ 0xFFE ∧ decode (wordAtPc (atWord 0xFFE 0xF265)) = .ok (.ldVxMem 0x2) := by decide
/-- The last place a word can stand, and an odd one. -/
theorem witness_WordWrittenAtPcIsTheNextInstruction :
    (0xFFE : Addr12) ≠ 0xFFF ∧ (State.reset.setPc 0xFFE).pc.toNat = (0xFFE : Addr12).toNat ∧
      (State.reset.setPc 0x201).pc.toNat = (0x201 : Addr12).toNat ∧ decode 0x6005 = .ok (.ldImm 0x0 0x05) := by decide
/-- One step for each error of R271, both spaces included, and the fetch's own error. -/
theorem witness_ErrorRecordOfEveryFault :
    faultOf (step (atWord 0x200 0x5121)) = some (.decodeError 0x200 0x5121) ∧
      faultOf (step { atWord 0x200 0x2300 with sp := 16 }) = some (.stackOverflow 0x200 0x2300 16) ∧
      faultOf (step (atWord 0x200 0x00EE)) = some (.stackUnderflow 0x200 0x00EE 0) ∧
      faultOf (step ((atWord 0x200 0xF065).setI 0x1000)) = some (.addressOutOfRange 0x200 0xF065 0x1000 .ram) ∧
      faultOf (step ((atWord 0x200 0xE09E).setReg 0 0x10)) = some (.addressOutOfRange 0x200 0xE09E 0x10 .keys) ∧
      faultOf (step (State.reset.setPc 0xFFFF)) = some (.addressOutOfRange 0xFFFF 0 0xFFFF .ram) := by decide
theorem witness_SysFollowsThePolicy :
    (0x0E1 : Addr12) ≠ 0x0E0 ∧ (0x0E1 : Addr12) ≠ 0x0EE ∧ State.reset.cfg.sysPolicy = .decodeError ∧
      (withStraps State.reset (fun c => { c with sysPolicy := .nop })).cfg.sysPolicy = .nop := by decide
/-- No frame, the first frame, and the sixteenth, whose address is above 0xFFE. -/
theorem witness_ReturnPopsTheStack :
    State.reset.sp.val = 0 ∧ (withFrames 1 0x204).sp.val = (0 : Fin 16).val + 1 ∧
      (withFrames 16 0xFFF).sp.val = (15 : Fin 16).val + 1 ∧ 0xFFE < ((withFrames 16 0xFFF).stack[(15 : Fin 16)]).toNat ∧
      isNext (exec .ret (withFrames 16 0xFFF)) = true := by decide
theorem witness_JumpGoesToTheTarget :
    (State.reset.setPc 0x234).pc.toNat = (0x234 : Addr12).toNat ∧
      nextOf (exec (.jp 0x234) (State.reset.setPc 0x234)) = some (State.reset.setPc 0x234) ∧
      errorOf (State.reset.setPc 0xFFF) 0 = some (.addressOutOfRange 0xFFF 0 0x1000 .ram) := by decide
theorem witness_CallPushesTheNextAddress :
    (withFrames 16 0).sp.val = 16 ∧ (withFrames 15 0).sp.val = (15 : Fin 16).val ∧
      State.reset.sp.val = (0 : Fin 16).val ∧ isNext (exec (.call 0x300) (withFrames 15 0)) = true := by decide
/-- The sums 0xFFE and 0xFFF, on either side of the last fetch address. -/
theorem witness_JumpV0AddsWithoutWrapping :
    nextOf (exec (.jpV0 0xF00) (State.reset.setReg 0 0xFE)) = some ((State.reset.setReg 0 0xFE).setPc 0xFFE) ∧
      nextOf (exec (.jpV0 0xF00) (State.reset.setReg 0 0xFF)) = some ((State.reset.setReg 0 0xFF).setPc 0xFFF) ∧
      faultOf (step ((State.reset.setReg 0 0xFF).setPc 0xFFF)) = some (.addressOutOfRange 0xFFF 0 0x1000 .ram) := by decide
theorem witness_ReturnAfterCallGoesToTheNextInstruction :
    ∃ t u, exec (.call 0x300) State.reset = .next t ∧ u.stack = t.stack ∧ u.sp = t.sp ∧ u.pc = 0x346 ∧
      exec .ret u = .next (u.pop.setPc 0x202) := by
  exact ⟨(State.reset.push 0x202 (by decide)).setPc 0x300, (State.reset.push 0x202 (by decide)).setPc 0x346,
    rfl, rfl, rfl, rfl, rfl⟩
theorem witness_SkipsCompareWithTheImmediate :
    (State.reset.setReg 0xF 0xFF).reg 0xF = 0xFF ∧ State.reset.reg 0xF ≠ 0xFF := by decide
theorem witness_SkipsCompareTwoRegisters :
    (withRegs 0 0xFF 0xF 0xFF).reg 0 = (withRegs 0 0xFF 0xF 0xFF).reg 0xF ∧
      (withRegs 0 0xFF 0xF 0).reg 0 ≠ (withRegs 0 0xFF 0xF 0).reg 0xF ∧ (0x1 : Nibble) ≠ 0x0 := by decide
/-- The index 15 with key 15 down and up; the index 16 under either mode, with key 0 down. -/
theorem witness_SkipsTestTheKey :
    ((State.reset.setReg 5 15).reg 5).toNat ≤ 15 ∧
      ((State.reset.setReg 5 15).setKeys 0x8000).keys.getLsbD (15 % 16) = true ∧
      (State.reset.setReg 5 15).keys.getLsbD (15 % 16) = false ∧
      15 < ((State.reset.setReg 5 16).reg 5).toNat ∧ State.reset.cfg.keyIndexMode = .fault ∧
      isNext (exec (.skp 5) (withStraps ((State.reset.setReg 5 16).setKeys 1)
        (fun c => { c with keyIndexMode := .lowNibble }))) = true := by decide
/-- X = F, where the flag wins, and X other than F. -/
theorem witness_FlagWritingForms :
    (0xE : Nibble) ≠ 0xF ∧ nextOf (exec (.addReg 0xF 0xF) (State.reset.setReg 0xF 0x80)) =
      some ((State.reset.setReg 0xF 1).setPc 0x202) ∧
      nextOf (exec (.subReg 0xF 0x1) (State.reset.setReg 1 1)) = some ((State.reset.setReg 1 1).setPc 0x202) := by decide
theorem witness_ShiftWritesTheResultThenTheBitShiftedOut :
    State.reset.cfg.shiftSource = .vx ∧
      (withStraps State.reset (fun c => { c with shiftSource := .vy })).cfg.shiftSource = .vy := by decide
/-- I ends at 0x1000, and a load through it raises; I ends at 0xFFF. -/
theorem witness_AddToIndexWrapsAt16Bits :
    nextOf (exec (.addIVx 0) ((State.reset.setReg 0 1).setI 0xFFF)) = some (((State.reset.setReg 0 1).setI 0x1000).setPc 0x202) ∧
      faultOf (exec (.ldVxMem 0) (State.reset.setI 0x1000)) = some (.addressOutOfRange 0x200 0xF065 0x1000 .ram) ∧
      isNext (exec (.ldVxMem 0) (State.reset.setI 0xFFF)) = true := by decide
theorem witness_FontAddressIsFiveTimesTheDigit :
    State.reset.cfg.fontAddrMode = .lowNibble ∧
      (withStraps State.reset (fun c => { c with fontAddrMode := .fullByte })).cfg.fontAddrMode = .fullByte ∧
      afterStep (withStraps (State.reset.setReg 0 0xFF) (fun c => { c with fontAddrMode := .fullByte })) 0xF029
        (fun t => t.i) = some 0x4FB := by decide
/-- I = 0xFFD stores to the last three bytes; I = 0xFFE and I = 0xFFFF raise. -/
theorem witness_StoreBcdWritesThreeDigits :
    afterStep ((State.reset.setReg 0 255).setI 0xFFD) 0xF033
        (fun t => (t.readByte 0xFFD, t.readByte 0xFFE, t.readByte 0xFFF)) = some (2, 5, 5) ∧
      errorOf (State.reset.setI 0xFFE) 0xF033 = some (.addressOutOfRange 0x200 0xF033 0x1000 .ram) ∧
      errorOf (State.reset.setI 0xFFFF) 0xF033 = some (.addressOutOfRange 0x200 0xF033 0xFFFF .ram) := by decide
/-- I + X = 4095 and 4096, and the straps of QUIRK_LOADSTORE_INC_I. -/
theorem witness_RegisterDumpStoresTheBlock :
    isNext (exec (.ldMemVx 0xF) (State.reset.setI 0xFF0)) = true ∧
      faultOf (exec (.ldMemVx 0xF) (State.reset.setI 0xFF1)) = some (.addressOutOfRange 0x200 0xFF55 0x1000 .ram) ∧
      State.reset.cfg.loadStoreIncI = false ∧
      afterStep (withStraps (State.reset.setI 0xFF0) (fun c => { c with loadStoreIncI := true })) 0xFF55
        (fun t => t.i) = some 0x1000 := by decide
/-- I + X = 4095 and 4096, and the straps of QUIRK_LOADSTORE_INC_I. -/
theorem witness_RegisterLoadFillsTheBlock :
    isNext (exec (.ldVxMem 0xF) (State.reset.setI 0xFF0)) = true ∧
      faultOf (exec (.ldVxMem 0xF) (State.reset.setI 0xFF1)) = some (.addressOutOfRange 0x200 0xFF65 0x1000 .ram) ∧
      State.reset.cfg.loadStoreIncI = false ∧
      afterStep (withStraps (State.reset.setI 0xFF0) (fun c => { c with loadStoreIncI := true })) 0xFF65
        (fun t => (t.i, t.reg 0xF)) = some (0x1000, 0) := by decide
/-- I + N - 1 = 4095 and 4096. -/
theorem witness_DrawXorsTheSpriteAndReportsCollision_range :
    isNext (exec (.drw 0 1 0xF) (State.reset.setI 0xFF1)) = true ∧
      faultOf (exec (.drw 0 1 0xF) (State.reset.setI 0xFF2)) = some (.addressOutOfRange 0x200 0xD01F 0x1000 .ram) ∧
      (0xF : Nibble) ≠ 0 := by decide
/-- A set pixel at column 63, row 31, which wraps to column 0 and row 0. -/
theorem witness_DrawXorsTheSpriteAndReportsCollision_hits :
    spriteHits (withRegs 0 63 1 31) 0 1 1 63 31 ∧ spriteHits (withRegs 0 63 1 31) 0 1 2 0 31 ∧
      spriteHits (withRegs 0 63 1 31) 0 1 2 63 0 :=
  ⟨⟨0, 0, by decide⟩, ⟨0, 1, by decide⟩, ⟨1, 0, by decide⟩⟩
/-- A cell no set pixel lands on: it lies above the one row drawn. -/
theorem witness_DrawXorsTheSpriteAndReportsCollision_misses : ¬ spriteHits (withRegs 0 63 1 31) 0 1 1 0 30 := by
  rintro ⟨r, c, hr, _, _, hy, _⟩
  have h1 : r < 1 := hr
  have h2 : (31 + r) % 32 = 30 := hy
  omega
/-- A collision, and none on the clear framebuffer. -/
theorem witness_DrawXorsTheSpriteAndReportsCollision_collides :
    spriteHits (State.reset.setFb (Framebuffer.clear.setCell 0 0 true)) 0 1 1 0 0 ∧
      (State.reset.setFb (Framebuffer.clear.setCell 0 0 true)).fb.cell 0 0 = true ∧
      afterStep (State.reset.setFb (Framebuffer.clear.setCell 0 0 true)) 0xD011 (fun t => t.reg 0xF) = some 1 ∧
      afterStep State.reset 0xD011 (fun t => t.reg 0xF) = some 0 :=
  ⟨⟨0, 0, by decide⟩, by decide, by decide, by decide⟩
theorem witness_DrawTwiceRestoresTheFramebuffer :
    ∃ t u : State, exec (.drw 0 1 1) State.reset = .next t ∧ u.fb = t.fb ∧ u.reg 0 = State.reset.reg 0 ∧
      u.reg 1 = State.reset.reg 1 ∧ u.i = State.reset.i ∧ (∀ a, u.readByte a = State.reset.readByte a) ∧
      (∀ cx cy, State.reset.fb.cell cx cy = false) ∧ (State.reset.readByte (State.reset.i.toNat + 0)).getLsbD 7 = true :=
  ⟨_, _, rfl, rfl, rfl, rfl, rfl, fun _ => rfl, by decide, by decide⟩
/-- No key down; key 15 alone; keys 2 and 4. -/
theorem witness_WaitForKeyTakesTheLowestPressedKey :
    (∀ k < 16, State.reset.keys.getLsbD k = false) ∧
      ((0x8000 : BitVec 16).getLsbD 15 = true ∧ ∀ j < 15, (0x8000 : BitVec 16).getLsbD j = false) ∧
      ((0x0014 : BitVec 16).getLsbD 2 = true ∧ ∀ j < 2, (0x0014 : BitVec 16).getLsbD j = false) := by decide
theorem witness_KeyWaitLastsUntilTheHostPressesAKey :
    (atWord 0xFFE 0xF50A).pc.toNat ≤ 0xFFE ∧ wordAtPc (atWord 0xFFE 0xF50A) = 0xF#4 ++ (0x5 : Nibble) ++ 0x0A#8 ∧
      (atWord 0xFFE 0xF50A).keys = 0 ∧
      ∀ t ∈ [Transaction.step, .hostTick, .step, .hostPeek, .hostMemRead 0, .hostFbRead 0 0], waitsOrLooks t := by
  refine ⟨by decide, by decide, by decide, ?_⟩
  intro t ht
  fin_cases ht <;> trivial
/-- The host steps and ticks by turns for ever, and presses no key. -/
theorem witness_EndlessKeyWaitIsAnInfiniteRun :
    (atWord 0xFFE 0xF50A).pc.toNat ≤ 0xFFE ∧ wordAtPc (atWord 0xFFE 0xF50A) = 0xF#4 ++ (0x5 : Nibble) ++ 0x0A#8 ∧
      (atWord 0xFFE 0xF50A).keys = 0 ∧
      ∃ sched : Schedule, (∀ n, waitsOrLooks (sched n)) ∧ sched 0 = .step ∧ sched 1 = .hostTick := by
  refine ⟨by decide, by decide, by decide, fun n => if n % 2 = 0 then .step else .hostTick, fun n => ?_, rfl, rfl⟩
  by_cases h : n % 2 = 0 <;> simp [h, waitsOrLooks]
theorem witness_RomIsLoadedVerbatimAt0x200 :
    3584 < (List.replicate 3585 (0 : Byte)).length ∧ (List.replicate 3584 (0 : Byte)).length ≤ 3584 ∧
      ([] : List Byte).length ≤ 3584 := by
  rw [List.length_replicate, List.length_replicate]; decide
theorem witness_HostRamPortWritesAndReadsOneByte : (0xFFF : Addr12) ≠ 0x000 := by decide
theorem witness_EveryTransactionKeepsRamAndFrames : (withFrames 16 0x1000).memWf ∧ (withFrames 16 0x1000).framesBounded :=
  ⟨by unfold State.memWf; decide, by unfold State.framesBounded; decide⟩
theorem witness_StepKeepsTheInvariant : State.Inv (atWord 0x200 0x2300) ∧ isNext (step (atWord 0x200 0x2300)) = true :=
  ⟨⟨by unfold State.memWf; decide, by unfold State.framesBounded; decide, by unfold State.pcBounded; decide⟩, by decide⟩
theorem witness_EveryReachableStateIsCanonical :
    State.Reachable (transactAll [.hostMemWrite 0x200 0x60, .hostMemWrite 0x201 0x05, .step]
      (State.resetWith Config.default)) := ⟨_, _, rfl⟩
/-- For the rules on who writes what: an instruction that writes none of it answers a next state. -/
theorem witness_OnlyNamedInstructionsWrite :
    isNext (exec (.jp 0x300) State.reset) = true ∧ State.reset.cfg.loadStoreIncI = false ∧
      isNext (exec (.ldVxMem 0x1) State.reset) = true := by decide
theorem witness_OnlyNamedRegistersAreWritten : isNext (exec (.ldVxMem 0x1) State.reset) = true ∧
    ¬ writesReg (.ldVxMem 0x1) 0x2 := ⟨by decide, by simp [writesReg]⟩
theorem witness_NoStepWritesKeysOrStraps : isNext (step ((atWord 0x200 0xF50A).setKeys 0x8000)) = true := by decide
theorem witness_SoundTimerIsNeverRead :
    isNext (step (atWord 0x200 0xF218)) = true ∧ faultOf (step (atWord 0x200 0x00EE)) = some (.stackUnderflow 0x200 0x00EE 0) := by
  decide

end Sys2Proof.Tests
end

/-!
SUPPORT. What an operation leaves unchanged, as one relation that every update of the state keeps, and the frame of every
instruction: the parts it writes (`writtenParts`) beside the registers of `writesReg` (10_state.md R22, R23, R26, R30,
R37, R42, R43).
-/

namespace Sys2Proof.Machine

open Sys2Proof.Claims

/-! ### The frame relation and the updates that keep it -/

/-- `Frame`, and with RAM unwritten its list of cells unchanged as well, which its canonical form speaks of (log 8). -/
structure Keeps (s t : State) (regs : Nibble → Prop) (parts : List Part) : Prop extends Frame s t regs parts where
  mem : Part.ram ∉ parts → t.mem = s.mem

section Updates

variable {s t : State} {regs : Nibble → Prop} {parts : List Part}

theorem Keeps.refl (s : State) (regs : Nibble → Prop) (parts : List Part) : Keeps s s regs parts where
  regs  := fun _ _ => rfl
  index := fun _ => rfl
  stack := fun _ => ⟨rfl, rfl⟩
  dt    := fun _ => rfl
  st    := fun _ => rfl
  ram   := fun _ _ => rfl
  fb    := fun _ _ _ => rfl
  draws := fun _ => rfl
  keys  := rfl
  cfg   := rfl
  mem   := fun _ => rfl

theorem Keeps.setPc (h : Keeps s t regs parts) (a : Word) : Keeps s (t.setPc a) regs parts := { h with }

theorem Keeps.advance (h : Keeps s t regs parts) : Keeps s t.advance regs parts := h.setPc _

theorem Keeps.setReg {x : Nibble} (h : Keeps s t regs parts) (hx : regs x) (b : Byte) :
    Keeps s (t.setReg x b) regs parts :=
  { h with
    regs := fun r hr => (State.setReg_reg_ne t x r b (fun e => hr (e ▸ hx))).trans (h.regs r hr) }

theorem Keeps.setRegs {v : Vector Byte 16} (h : Keeps s t regs parts)
    (hv : ∀ r, ¬ regs r → (t.setRegs v).reg r = s.reg r) : Keeps s (t.setRegs v) regs parts :=
  { h with regs := hv }

theorem Keeps.setI (h : Keeps s t regs parts) (hp : .index ∈ parts) (a : Word) : Keeps s (t.setI a) regs parts :=
  { h with index := fun hn => absurd hp hn }

theorem Keeps.setDt (h : Keeps s t regs parts) (hp : .dt ∈ parts) (b : Byte) : Keeps s (t.setDt b) regs parts :=
  { h with dt := fun hn => absurd hp hn }

theorem Keeps.setSt (h : Keeps s t regs parts) (hp : .st ∈ parts) (b : Byte) : Keeps s (t.setSt b) regs parts :=
  { h with st := fun hn => absurd hp hn }

theorem Keeps.setMem (h : Keeps s t regs parts) (hp : .ram ∈ parts) (m : Memory) : Keeps s (t.setMem m) regs parts :=
  { h with
    ram := fun hn => absurd hp hn
    mem := fun hn => absurd hp hn }

theorem Keeps.setFb (h : Keeps s t regs parts) (hp : .fb ∈ parts) (fb : Framebuffer) :
    Keeps s (t.setFb fb) regs parts :=
  { h with fb := fun hn => absurd hp hn }

theorem Keeps.countDraw (h : Keeps s t regs parts) (hp : .draws ∈ parts) : Keeps s t.countDraw regs parts :=
  { h with draws := fun hn => absurd hp hn }

theorem Keeps.push (h : Keeps s t regs parts) (hp : .stack ∈ parts) (a : Word) (h16 : t.sp.val < 16) :
    Keeps s (t.push a h16) regs parts :=
  { h with stack := fun hn => absurd hp hn }

theorem Keeps.pop (h : Keeps s t regs parts) (hp : .stack ∈ parts) : Keeps s t.pop regs parts :=
  { h with stack := fun hn => absurd hp hn }

theorem Keeps.aluWrite {x : Nibble} (h : Keeps s t regs parts) (hx : regs x) (hf : regs vf) (b : Byte) (f : Bool) :
    Keeps s (t.aluWrite x b f) regs parts :=
  (h.advance.setReg hx b).setReg hf (flagByte f)

theorem Keeps.skipIf (h : Keeps s t regs parts) (c : Bool) : Keeps s (t.skipIf c) regs parts := by
  rw [State.skipIf_eq_setPc]
  exact h.setPc _

end Updates

/-! ### What each instruction writes -/

/-- What FX55 and FX65 write of `I`: nothing, but under QUIRK_LOADSTORE_INC_I (R214, R215). -/
def indexUnderQuirk (cfg : Config) : List Part := if cfg.loadStoreIncI then [.index] else []

@[simp] theorem mem_indexUnderQuirk (cfg : Config) (p : Part) :
    p ∈ indexUnderQuirk cfg ↔ p = .index ∧ cfg.loadStoreIncI = true := by
  unfold indexUnderQuirk
  split <;> simp [*]

/-- The parts beside the registers and pc that an instruction may write. -/
def writtenParts (cfg : Config) : Instr → List Part
  | .cls | .drw _ _ _ => [.fb]
  | .ret | .call _ => [.stack]
  | .ldI _ | .addIVx _ | .ldFVx _ => [.index]
  | .ldDtVx _ => [.dt]
  | .ldStVx _ => [.st]
  | .rnd _ _ => [.draws]
  | .ldBVx _ => [.ram]
  | .ldMemVx _ => .ram :: indexUnderQuirk cfg
  | .ldVxMem _ => indexUnderQuirk cfg
  | .sys _ | .jp _ | .seImm _ _ | .sneImm _ _ | .seReg _ _ | .ldImm _ _ | .addImm _ _ | .ldReg _ _ | .orReg _ _
  | .andReg _ _ | .xorReg _ _ | .addReg _ _ | .subReg _ _ | .shrReg _ _ | .subnReg _ _ | .shlReg _ _ | .sneReg _ _
  | .jpV0 _ | .skp _ | .sknp _ | .ldVxDt _ | .ldVxK _ => []

/-- FX55 and FX65 write I only under QUIRK_LOADSTORE_INC_I (R214, R215). -/
theorem Keeps.setI_indexAfterBlock {s t : State} {regs : Nibble → Prop} {parts : List Part} (h : Keeps s t regs parts)
    (hp : s.cfg.loadStoreIncI = true → .index ∈ parts) (x : Nibble) :
    Keeps s (t.setI (s.indexAfterBlock x)) regs parts :=
  { h with
    index := fun hn => by
      have hq : ¬ s.cfg.loadStoreIncI = true := fun hq => hn (hp hq)
      simp [State.indexAfterBlock, hq] }

/-- An instruction leaves unchanged all but the registers and parts named for it, and pc. -/
theorem exec_keeps {i : Instr} {s t : State} (h : exec i s = .next t) :
    Keeps s t (writesReg i) (writtenParts s.cfg i) := by
  have hf := exec_next_form h
  have same := Keeps.refl s (writesReg i) (writtenParts s.cfg i)
  cases i
  case cls => obtain rfl := hf; exact same.advance.setFb (.head _) _
  case ret => obtain ⟨k, -, rfl⟩ := hf; exact (same.advance.pop (.head _)).setPc _
  case sys => obtain ⟨-, rfl⟩ := hf; exact same.advance
  case call => obtain ⟨h16, rfl⟩ := hf; exact (same.push (.head _) _ h16).setPc _
  case jp | jpV0 => obtain rfl := hf; exact same.advance.setPc _
  case seImm | sneImm | seReg | sneReg => obtain rfl := hf; exact same.skipIf _
  case skp | sknp => obtain ⟨k, -, rfl⟩ := hf; exact same.skipIf _
  case ldImm | addImm | ldReg | orReg | andReg | xorReg | ldVxDt => obtain rfl := hf; exact same.advance.setReg rfl _
  case addReg | subReg | shrReg | subnReg | shlReg =>
    obtain rfl := hf; exact same.aluWrite (.inl rfl) (.inr rfl) _ _
  case rnd => obtain rfl := hf; exact (same.advance.countDraw (.head _)).setReg rfl _
  case drw => obtain ⟨-, rfl⟩ := hf; exact (same.advance.setFb (.head _) _).setReg rfl _
  case ldVxK =>
    obtain ⟨-, rfl⟩ | ⟨k, -, rfl⟩ := hf
    · exact same.advance.setPc _
    · exact same.advance.setReg rfl _
  case ldDtVx => obtain rfl := hf; exact same.advance.setDt (.head _) _
  case ldStVx => obtain rfl := hf; exact same.advance.setSt (.head _) _
  case ldI | addIVx | ldFVx => obtain rfl := hf; exact same.advance.setI (.head _) _
  case ldBVx => obtain ⟨-, rfl⟩ := hf; exact same.advance.setMem (.head _) _
  case ldMemVx x =>
    obtain ⟨-, rfl⟩ := hf
    exact (same.advance.setMem (.head _) _).setI_indexAfterBlock (fun hq => by simp [writtenParts, hq]) x
  case ldVxMem x =>
    obtain ⟨-, rfl⟩ := hf
    have hregs : ∀ r, ¬ writesReg (.ldVxMem x) r → (s.advance.setRegs (s.loadBlock x)).reg r = s.reg r := fun r hr => by
      rw [State.setRegs_loadBlock_reg]; exact if_neg hr
    exact (same.advance.setRegs hregs).setI_indexAfterBlock (fun hq => by simp [writtenParts, hq]) x

/-! ### Who writes a part -/

section Writers

variable {cfg : Config} {i : Instr}

theorem fb_mem_writtenParts : .fb ∈ writtenParts cfg i ↔ i = .cls ∨ ∃ x y n, i = .drw x y n := by
  cases i <;> simp [writtenParts]

theorem stack_mem_writtenParts : .stack ∈ writtenParts cfg i ↔ i = .ret ∨ ∃ nnn, i = .call nnn := by
  cases i <;> simp [writtenParts]

theorem ram_mem_writtenParts : .ram ∈ writtenParts cfg i ↔ (∃ x, i = .ldBVx x) ∨ ∃ x, i = .ldMemVx x := by
  cases i <;> simp [writtenParts]

theorem index_mem_writtenParts : .index ∈ writtenParts cfg i ↔
    (∃ nnn, i = .ldI nnn) ∨ (∃ x, i = .addIVx x) ∨ (∃ x, i = .ldFVx x) ∨
      cfg.loadStoreIncI = true ∧ ((∃ x, i = .ldMemVx x) ∨ ∃ x, i = .ldVxMem x) := by
  cases i <;> simp [writtenParts]

theorem dt_mem_writtenParts : .dt ∈ writtenParts cfg i ↔ ∃ x, i = .ldDtVx x := by
  cases i <;> simp [writtenParts]

theorem st_mem_writtenParts : .st ∈ writtenParts cfg i ↔ ∃ x, i = .ldStVx x := by
  cases i <;> simp [writtenParts]

end Writers

end Sys2Proof.Machine

/-!
SUPPORT. The machine's invariant (10_state.md R27, R29): canonical RAM, bounded frames and bounded pc, each kept by every
step, and the first two by every transaction (20_memory.md R70).
-/

namespace Sys2Proof.Machine

open Sys2Proof.Claims

/-! ### Canonical RAM -/

theorem State.memWf_of_mem_eq {s t : State} (h : t.mem = s.mem) (w : s.memWf) : t.memWf := by
  unfold State.memWf
  rw [h]
  exact w

/-- Only FX33 and FX55 write RAM, and both check their addresses first (R217). -/
theorem exec_memWf {i : Instr} {s t : State} (h : exec i s = .next t) (w : s.memWf) : t.memWf := by
  by_cases hram : .ram ∈ writtenParts s.cfg i
  · have hf := exec_next_form h
    obtain ⟨x, rfl⟩ | ⟨x, rfl⟩ := ram_mem_writtenParts.mp hram
    · obtain ⟨hr, rfl⟩ := hf
      exact Memory.wf_writeBytes _ _ _ hr w
    · obtain ⟨hr, rfl⟩ := hf
      exact Memory.wf_writeBytes _ _ _ (by rw [s.regBlock_length]; exact hr) w
  · exact State.memWf_of_mem_eq ((exec_keeps h).mem hram) w

theorem hostMemWrite_memWf (a : Addr12) (b : Byte) {s : State} (w : s.memWf) : (hostMemWrite a b s).memWf :=
  Memory.wf_write s.mem a.toNat b a.isLt w

theorem State.resetWith_memWf (straps : Config) : (State.resetWith straps).memWf :=
  Memory.wf_resetMemory straps.fontTable

/-! ### Bounded frames -/

theorem State.framesBounded_of_stack_eq {s t : State} (hst : t.stack = s.stack) (hsp : t.sp = s.sp)
    (hb : s.framesBounded) : t.framesBounded := fun k hk => by
  rw [hst]
  exact hb k (hsp ▸ hk)

theorem State.framesBounded_of_sp_eq_zero {s : State} (h : s.sp = 0) : s.framesBounded := fun k hk => by
  simp [h] at hk

/-- A frame pushed at or below the bound keeps the frames bounded. -/
theorem State.push_framesBounded {s : State} {a : Word} (h16 : s.sp.val < 16) (ha : a.toNat ≤ 0x1000)
    (hb : s.framesBounded) : (s.push a h16).framesBounded := fun k hk => by
  have hk : k.val < s.sp.val + 1 := hk
  simp only [State.push_stack, Fin.getElem_fin, Vector.getElem_set]
  split
  · exact ha
  · exact hb k (by omega)

/-- Only RET and CALL write the stack; the address CALL pushes is at most 0xFFE + 2, the instruction having been
fetched. -/
theorem exec_framesBounded {i : Instr} {s t : State} (h : exec i s = .next t) (hpc : s.pc.toNat ≤ 0xFFE)
    (hb : s.framesBounded) : t.framesBounded := by
  by_cases hstack : .stack ∈ writtenParts s.cfg i
  · have hf := exec_next_form h
    obtain rfl | ⟨nnn, rfl⟩ := stack_mem_writtenParts.mp hstack
    · obtain ⟨k, hk, rfl⟩ := hf
      exact fun j hj => hb j (Nat.lt_of_lt_of_le hj (Nat.sub_le _ 1))
    · obtain ⟨h16, rfl⟩ := hf
      exact State.push_framesBounded h16 (by simp only [State.advance_pc]; bv_omega) hb
  · obtain ⟨hst, hsp⟩ := (exec_keeps h).stack hstack
    exact State.framesBounded_of_stack_eq hst hsp hb

/-! ### Bounded pc (R27) -/

theorem pcBounded_add_two {a : Word} (h : a.toNat ≤ 0xFFE) : (a + 2).toNat ≤ 0x10FE := by bv_omega

theorem pcBounded_jump (nnn : Addr12) : (zext16 nnn).toNat ≤ 0x10FE := by
  rw [BitVec.toNat_setWidth]; omega

/-- The highest target of BNNN is 0xFFF + 0xFF (R145). -/
theorem pcBounded_jumpV0 (nnn : Addr12) (b : Byte) : (zext16 nnn + zext16 b).toNat ≤ 0x10FE := by
  rw [BitVec.toNat_add, BitVec.toNat_setWidth, BitVec.toNat_setWidth]; omega

theorem State.skipIf_pcBounded {s : State} (hpc : s.pc.toNat ≤ 0xFFE) (c : Bool) : (s.skipIf c).pcBounded := by
  unfold State.pcBounded
  rw [State.skipIf_pc]
  split <;> bv_omega

/-- pc after a fetched instruction: pc0, pc0 + 2, pc0 + 4, a jump's target, or a popped frame. -/
theorem exec_pcBounded {i : Instr} {s t : State} (h : exec i s = .next t) (hpc : s.pc.toNat ≤ 0xFFE)
    (hb : s.framesBounded) : t.pcBounded := by
  have hf := exec_next_form h
  have hnext := pcBounded_add_two hpc
  cases i
  case ret =>
    obtain ⟨k, hk, rfl⟩ := hf
    exact Nat.le_trans (hb k (by omega)) (by decide)
  case jp => obtain rfl := hf; exact pcBounded_jump _
  case call => obtain ⟨h16, rfl⟩ := hf; exact pcBounded_jump _
  case jpV0 => obtain rfl := hf; exact pcBounded_jumpV0 _ _
  case seImm | sneImm | seReg | sneReg => obtain rfl := hf; exact State.skipIf_pcBounded hpc _
  case skp | sknp => obtain ⟨k, -, rfl⟩ := hf; exact State.skipIf_pcBounded hpc _
  case ldVxK =>
    obtain ⟨-, rfl⟩ | ⟨k, -, rfl⟩ := hf
    · exact Nat.le_trans hpc (by decide)
    · exact hnext
  case sys | drw | ldBVx | ldMemVx | ldVxMem => obtain ⟨-, rfl⟩ := hf; exact hnext
  all_goals (obtain rfl := hf; exact hnext)

/-! ### The invariant along steps and transactions -/

theorem step_inv {s t : State} (hinv : s.Inv) (h : step s = .next t) : t.Inv := by
  obtain ⟨i, hpc, -, hexec⟩ := step_next_cases h
  exact ⟨exec_memWf hexec hinv.mem, exec_framesBounded hexec hpc hinv.frames, exec_pcBounded hexec hpc hinv.frames⟩

/-- Settles O48: the step is exec of a fetched instruction, which keeps each part of the invariant. -/
theorem stepKeepsTheInvariant : Obligations.StepKeepsTheInvariant :=
  fun _ _ hinv h => step_inv hinv h

theorem State.resetWith_framesBounded (straps : Config) : (State.resetWith straps).framesBounded :=
  State.framesBounded_of_sp_eq_zero rfl

/-- A step transaction answers a state that a step gives, or on an error the state before it (R128). -/
theorem stepTransaction_cases (s : State) : step s = .next (stepTransaction s).1 ∨ (stepTransaction s).1 = s := by
  unfold stepTransaction
  split
  · next t h => exact .inl h
  · exact .inr rfl
  · exact .inr rfl

theorem stepTransaction_memWf_framesBounded {s : State} (w : s.memWf) (hb : s.framesBounded) :
    (stepTransaction s).1.memWf ∧ (stepTransaction s).1.framesBounded := by
  obtain h | h := stepTransaction_cases s
  · obtain ⟨i, hpc, -, hexec⟩ := step_next_cases h
    exact ⟨exec_memWf hexec w, exec_framesBounded hexec hpc hb⟩
  · rw [h]
    exact ⟨w, hb⟩

/-- Every transaction keeps RAM canonical and the frames bounded: of the ports only the reset and the RAM port write RAM,
and only the reset writes the stack. -/
theorem transact_memWf_framesBounded (tr : Transaction) {s : State} (w : s.memWf) (hb : s.framesBounded) :
    (transact tr s).1.memWf ∧ (transact tr s).1.framesBounded := by
  cases tr with
  | step => exact stepTransaction_memWf_framesBounded w hb
  | hostReset straps => exact ⟨State.resetWith_memWf straps, State.resetWith_framesBounded straps⟩
  | hostMemWrite a b => exact ⟨hostMemWrite_memWf a b w, hb⟩
  | hostMemRead | hostFbRead | hostSetKeys | hostTick | hostSkip | hostPeek => exact ⟨w, hb⟩

/-- Settles O56: by cases on the transaction. -/
theorem everyTransactionKeepsRamAndFrames : Obligations.EveryTransactionKeepsRamAndFrames :=
  ⟨fun tr _ w hb => transact_memWf_framesBounded tr w hb,
    fun straps => ⟨State.resetWith_memWf straps, State.resetWith_framesBounded straps⟩⟩

/-- What each transaction of a list keeps holds after the list. -/
theorem transactAll_invariant {P : State → Prop} {ts : List Transaction} {s : State} (h0 : P s)
    (h : ∀ tr ∈ ts, ∀ t, P t → P (transact tr t).1) : P (transactAll ts s) := by
  induction ts generalizing s with
  | nil => exact h0
  | cons tr ts ih => exact ih (h tr (.head _) s h0) (fun tr' htr => h tr' (.tail _ htr))

/-- Settles O49: the reset has canonical RAM and bounded frames, and every transaction keeps both. -/
theorem everyReachableStateIsCanonical : Obligations.EveryReachableStateIsCanonical := by
  rintro _ ⟨straps, ts, rfl⟩
  exact transactAll_invariant (P := fun s => s.memWf ∧ s.framesBounded)
    ⟨State.resetWith_memWf straps, State.resetWith_framesBounded straps⟩
    (fun tr _ t ⟨w, hb⟩ => transact_memWf_framesBounded tr w hb)

/-- Settles O47: RAM lists nothing, no frame is active, and pc is 0x200. -/
theorem resetMeetsTheInvariant : Obligations.ResetMeetsTheInvariant :=
  ⟨Memory.wf_reset, State.framesBounded_of_sp_eq_zero rfl, by unfold State.pcBounded; decide⟩

end Sys2Proof.Machine

/-!
SUPPORT. The call stack (10_state.md R29; 41_flow_and_system.md R142, R144).
-/

namespace Sys2Proof.Machine

open Sys2Proof.Claims

/-- RET with a frame active pops it (R142). -/
theorem execRet_next {s : State} {k : Fin 16} (h : s.sp.val = k.val + 1) :
    execRet s = .next (s.advance.pop.setPc s.stack[k]) := by
  have h0 : s.sp.val ≠ 0 := by omega
  rw [execRet, dif_pos h0, s.top_eq k h h0]

theorem execRet_fault {s : State} (h : s.sp.val = 0) :
    execRet s = .fault (.stackUnderflow s.pc (encode .ret) s.sp) := by
  rw [execRet, dif_neg (not_not.mpr h)]
  rfl

/-- All RET can answer. -/
theorem execRet_cases (s : State) :
    (s.sp.val = 0 ∧ execRet s = .fault (.stackUnderflow s.pc (encode .ret) s.sp)) ∨
      ∃ k : Fin 16, s.sp.val = k.val + 1 ∧ execRet s = .next (s.advance.pop.setPc s.stack[k]) := by
  by_cases h0 : s.sp.val = 0
  · exact .inl ⟨h0, execRet_fault h0⟩
  · have hk : s.sp.val = s.sp.val - 1 + 1 := by omega
    exact .inr ⟨⟨s.sp.val - 1, by omega⟩, hk, execRet_next hk⟩

/-- CALL with fewer than 16 frames active pushes pc0 + 2 and jumps (R144). -/
theorem execCall_next {s : State} (nnn : Addr12) (h : s.sp.val < 16) :
    execCall nnn s = .next ((s.push s.advance.pc h).setPc (zext16 nnn)) := by
  rw [execCall, dif_pos h]

theorem execCall_fault {s : State} (nnn : Addr12) (h : s.sp.val = 16) :
    execCall nnn s = .fault (.stackOverflow s.pc (encode (.call nnn)) s.sp) := by
  rw [execCall, dif_neg (by omega)]
  rfl

/-- All CALL can answer. -/
theorem execCall_cases (nnn : Addr12) (s : State) :
    (s.sp.val = 16 ∧ execCall nnn s = .fault (.stackOverflow s.pc (encode (.call nnn)) s.sp)) ∨
      ∃ h : s.sp.val < 16, execCall nnn s = .next ((s.push s.advance.pc h).setPc (zext16 nnn)) := by
  by_cases hlt : s.sp.val < 16
  · exact .inr ⟨hlt, execCall_next nnn hlt⟩
  · have h16 : s.sp.val = 16 := by omega
    exact .inl ⟨h16, execCall_fault nnn h16⟩

/-- With pc above 0xFFE the fetch raises, and no word was fetched (R122, R276). -/
theorem step_fetch_error {s : State} (h : 0xFFE < s.pc.toNat) :
    step s = .fault (.addressOutOfRange s.pc 0 (max s.pc.toNat 4096) .ram) := by
  rw [step, s.fetch_error h]
  rfl

/-- Settles O15, by the two cases of RET. -/
theorem returnPopsTheStack : Obligations.ReturnPopsTheStack := by
  refine ⟨by decide, fun s => ⟨fun h0 => ?_, fun k hk => ?_⟩⟩
  · have hsp : s.sp = 0 := Fin.ext h0
    exact (execRet_fault h0).trans (by rw [hsp]; rfl)
  · refine ⟨_, execRet_next hk, rfl, ?_, rfl,
      (((Keeps.refl s noReg [.stack]).advance.pop (.head _)).setPc _).toFrame, fun hpop => step_fetch_error hpop⟩
    simp [hk]

/-- 2NNN is CALL (R95). -/
theorem decode_wordNNN_call (nnn : Addr12) : decode (wordNNN 0x2 nnn) = .ok (.call nnn) := by
  simp [decode]

/-- Settles O17, by the two cases of CALL. -/
theorem callPushesTheNextAddress : Obligations.CallPushesTheNextAddress := by
  refine fun s nnn => ⟨decode_wordNNN_call nnn, fun h16 => ?_, fun k hk => ?_⟩
  · have hsp : s.sp = 16 := Fin.ext h16
    exact (execCall_fault nnn h16).trans (by rw [hsp]; rfl)
  · have hlt : s.sp.val < 16 := hk ▸ k.isLt
    have hslot : (s.push s.advance.pc hlt).stack[k] = s.pc + 2 := by simp [hk]
    refine ⟨_, execCall_next nnn hlt, ?_, congrArg (· + 1) hk, hslot, fun hpc => ?_, fun j hj => ?_,
      (((Keeps.refl s noReg [.stack]).push (.head _) _ hlt).setPc _).toFrame⟩
    · rw [State.setPc_pc, BitVec.toNat_setWidth]
      omega
    · rw [State.setPc_stack, hslot]
      bv_omega
    · have hne : s.sp.val ≠ j.val := fun e => hj (Fin.ext (by omega))
      simp [hne]

end Sys2Proof.Machine

/-!
SUPPORT. Who writes what (10_state.md R22, R23, R26, R30, R31, R37, R39, R42): the statements read off the frame of every
instruction.
-/

namespace Sys2Proof.Machine

open Sys2Proof.Claims

/-- Settles O50, from the frame of every instruction. -/
theorem onlyNamedInstructionsWriteFramebufferAndStack :
    Obligations.OnlyNamedInstructionsWriteFramebufferAndStack := by
  intro i s t h
  refine ⟨fun hcls hdrw => (exec_keeps h).fb fun hfb => ?_, fun hret hcall => (exec_keeps h).stack fun hstack => ?_⟩
  · obtain hi | ⟨x, y, n, hi⟩ := fb_mem_writtenParts.mp hfb
    · exact hcls hi
    · exact hdrw x y n hi
  · obtain hi | ⟨nnn, hi⟩ := stack_mem_writtenParts.mp hstack
    · exact hret hi
    · exact hcall nnn hi

/-- Settles O51, from the frame of every instruction. -/
theorem onlyNamedInstructionsWriteRamAndIndex : Obligations.OnlyNamedInstructionsWriteRamAndIndex := by
  intro i s t h
  refine ⟨fun hbcd hdump => (exec_keeps h).ram fun hram => ?_,
    fun hset hadd hfont hquirk => (exec_keeps h).index fun hindex => ?_⟩
  · obtain ⟨x, hi⟩ | ⟨x, hi⟩ := ram_mem_writtenParts.mp hram
    · exact hbcd x hi
    · exact hdump x hi
  · obtain ⟨nnn, hi⟩ | ⟨x, hi⟩ | ⟨x, hi⟩ | ⟨hinc, hblock⟩ := index_mem_writtenParts.mp hindex
    · exact hset nnn hi
    · exact hadd x hi
    · exact hfont x hi
    · obtain hoff | ⟨hdump, hload⟩ := hquirk
      · exact absurd hinc (by simp [hoff])
      · exact hblock.elim (fun ⟨x, hi⟩ => hdump x hi) (fun ⟨x, hi⟩ => hload x hi)

/-- Settles O52, from the frame of every instruction. -/
theorem onlyNamedInstructionsWriteTheTimers : Obligations.OnlyNamedInstructionsWriteTheTimers := by
  intro i s t h
  refine ⟨fun hother => (exec_keeps h).dt fun hdt => ?_, fun hother => (exec_keeps h).st fun hst => ?_⟩
  · obtain ⟨x, hi⟩ := dt_mem_writtenParts.mp hdt
    exact hother x hi
  · obtain ⟨x, hi⟩ := st_mem_writtenParts.mp hst
    exact hother x hi

/-- Settles O53: the register part of the frame. -/
theorem onlyNamedRegistersAreWritten : Obligations.OnlyNamedRegistersAreWritten :=
  fun _ _ _ r h hr => (exec_keeps h).regs r hr

/-- Settles O54: the frame of every instruction has the keys and the straps. -/
theorem noStepWritesKeysOrStraps : Obligations.NoStepWritesKeysOrStraps := by
  intro s t h
  obtain ⟨i, -, -, hexec⟩ := step_next_cases h
  exact ⟨(exec_keeps hexec).keys, (exec_keeps hexec).cfg⟩

/-! ### The sound timer is never read (R42) -/

/-- An answer with ST of its next state replaced. -/
def withSt (b : Byte) : StepResult → StepResult
  | .next t => .next (t.setSt b)
  | .fault f => .fault f
  | .refused r => .refused r

theorem State.raise_setSt (s : State) (b : Byte) (w : Word) (c : Cause) :
    (s.setSt b).raise w c = withSt b (s.raise w c) := by
  cases c <;> rfl

theorem State.checked_setSt (s : State) (b : Byte) (w : Word) (base len : Nat) {next next' : State}
    (h : next' = next.setSt b) : (s.setSt b).checked w base len next' = withSt b (s.checked w base len next) := by
  subst h
  unfold State.checked
  split
  · exact s.raise_setSt b w _
  · rfl

theorem State.skipIf_setSt (s : State) (b : Byte) (c : Bool) : (s.setSt b).skipIf c = (s.skipIf c).setSt b := by
  cases c <;> rfl

theorem State.skipOnKey_setSt (s : State) (b : Byte) (w : Word) (x : Nibble) (want : Bool) :
    (s.setSt b).skipOnKey w x want = withSt b (s.skipOnKey w x want) := by
  unfold State.skipOnKey
  simp only [State.setSt_cfg, State.setSt_reg, State.setSt_key, State.skipIf_setSt]
  split
  · rfl
  · exact s.raise_setSt b w _

/-- With another ST before it, an instruction other than FX18 answers the same, but for ST carried through. -/
theorem exec_setSt {i : Instr} (hi : ∀ x, i ≠ .ldStVx x) (s : State) (b : Byte) :
    exec i (s.setSt b) = withSt b (exec i s) := by
  cases i
  case ldStVx x => exact absurd rfl (hi x)
  case ret =>
    obtain ⟨h0, hs⟩ | ⟨k, hk, hs⟩ := execRet_cases s
    · exact (execRet_fault (s := s.setSt b) h0).trans (congrArg (withSt b) hs).symm
    · exact (execRet_next (s := s.setSt b) hk).trans (congrArg (withSt b) hs).symm
  case sys =>
    simp only [exec, execSys, State.setSt_cfg]
    split
    · exact s.raise_setSt b _ _
    · rfl
  case call nnn =>
    obtain ⟨h16, hs⟩ | ⟨hlt, hs⟩ := execCall_cases nnn s
    · exact (execCall_fault (s := s.setSt b) nnn h16).trans (congrArg (withSt b) hs).symm
    · exact (execCall_next (s := s.setSt b) nnn hlt).trans (congrArg (withSt b) hs).symm
  case seImm | sneImm | seReg | sneReg => exact congrArg Host.Outcome.next (s.skipIf_setSt b _)
  case skp | sknp => exact s.skipOnKey_setSt b _ _ _
  case drw | ldBVx | ldMemVx | ldVxMem => exact s.checked_setSt b _ _ _ rfl
  case ldVxK =>
    simp only [exec, execLdVxK]
    rw [show (s.setSt b).lowestKey = s.lowestKey from rfl]
    cases s.lowestKey <;> rfl
  all_goals rfl

/-- A step from a state with another ST: ST is carried through, or FX18 overwrites it. -/
theorem step_setSt (s : State) (b : Byte) : step (s.setSt b) = withSt b (step s) ∨ step (s.setSt b) = step s := by
  unfold step
  rw [show (s.setSt b).fetch = s.fetch from rfl]
  cases s.fetch with
  | error a => exact .inl (s.raise_setSt b 0 _)
  | ok w =>
    dsimp only
    cases decode w with
    | error e => exact .inl (s.raise_setSt b w _)
    | ok i =>
      by_cases hi : ∃ x, i = .ldStVx x
      · obtain ⟨x, rfl⟩ := hi
        exact .inr rfl
      · exact .inl (exec_setSt (not_exists.mp hi) s b)

/-- Settles O55: both answers of a step are the same up to ST of the next state. -/
theorem soundTimerIsNeverRead : Obligations.SoundTimerIsNeverRead := by
  intro s b
  obtain h | h := step_setSt s b
  · refine ⟨fun t ht => ⟨t.setSt b, ?_, rfl⟩, fun f hf => ?_⟩
    · rw [h, ht]; rfl
    · rw [h, hf]; rfl
  · exact ⟨fun t ht => ⟨t, h.trans ht, rfl⟩, fun f hf => h.trans hf⟩

end Sys2Proof.Machine

/-!
SUPPORT. The host's ports (10_state.md R36, R38, R40, R44, R45; 60_exceptions.md R279, R289) and the reset values
(70_reset_and_hazards.md R301).
-/

namespace Sys2Proof.Machine

open Sys2Proof.Claims

/-! ### The RAM port (R36) -/

theorem hostMemWrite_readByte (a : Addr12) (b : Byte) (s : State) (p : Nat) :
    (hostMemWrite a b s).readByte p = if p = a.toNat then b else s.readByte p :=
  Memory.read_write s.mem a.toNat b p

theorem hostMemWrite_keeps (a : Addr12) (b : Byte) {s t : State} {regs : Nibble → Prop} {parts : List Part}
    (h : Keeps s t regs parts) (hp : .ram ∈ parts) : Keeps s (hostMemWrite a b t) regs parts :=
  h.setMem hp _

/-- Settles O43, from read after write. -/
theorem hostRamPortWritesAndReadsOneByte : Obligations.HostRamPortWritesAndReadsOneByte := by
  intro s a b
  refine ⟨?_, fun c hc => ?_, rfl, (hostMemWrite_keeps a b (.refl s noReg [.ram]) (.head _)).toFrame, rfl, rfl⟩
  · simp only [hostMemRead, hostMemWrite_readByte, if_true]
  · have hne : c.toNat ≠ a.toNat := fun e => hc (BitVec.eq_of_toNat_eq e)
    simp only [hostMemRead, hostMemWrite_readByte, hne, if_false]

/-- The two bytes of a word, written by the host at `a` and `a + 1` (R62). -/
theorem hostMemWrite_word_readByte {a : Addr12} (ha : a ≠ 0xFFF) (hi lo : Byte) (s : State) :
    (hostMemWrite (a + 1) lo (hostMemWrite a hi s)).readByte a.toNat = hi ∧
      (hostMemWrite (a + 1) lo (hostMemWrite a hi s)).readByte (a.toNat + 1) = lo := by
  have hsucc : (a + 1).toNat = a.toNat + 1 := by bv_omega
  constructor
  · rw [hostMemWrite_readByte, if_neg (by omega), hostMemWrite_readByte, if_pos rfl]
  · rw [hostMemWrite_readByte, if_pos hsucc.symm]

/-- Settles O10: the bytes written are the ones fetched (R72), at odd addresses as at even ones. -/
theorem wordWrittenAtPcIsTheNextInstruction : Obligations.WordWrittenAtPcIsTheNextInstruction := by
  intro s a w i ha hpc hi
  have hkeeps := hostMemWrite_keeps a (highByte w) (.refl s noReg [.ram]) (.head _)
  refine ⟨_, rfl, rfl, (hostMemWrite_keeps (a + 1) (lowByte w) hkeeps (.head _)).toFrame, ?_⟩
  set t := transactAll [.hostMemWrite a (w.extractLsb' 8 8), .hostMemWrite (a + 1) (w.extractLsb' 0 8)] s
  have htpc : t.pc.toNat = a.toNat := hpc
  obtain ⟨hhigh, hlow⟩ := hostMemWrite_word_readByte ha (highByte w) (lowByte w) s
  have hword : joinBytes (t.readByte t.pc.toNat) (t.readByte (t.pc.toNat + 1)) = w := by
    rw [htpc]
    exact (congrArg₂ joinBytes hhigh hlow).trans (joinBytes_high_low w)
  exact ⟨hword, step_eq_exec t i (by bv_omega) (by rw [hword, hi])⟩

/-! ### Keys, framebuffer, skip and peek (R38, R40, R279, R289) -/

theorem State.key_eq_getLsbD (s : State) (k : Fin 16) : s.key k = s.keys.getLsbD k.val := rfl

/-- Settles O44, port by port. -/
theorem keyFramebufferAndSkipPorts : Obligations.KeyFramebufferAndSkipPorts := by
  intro s
  refine ⟨fun k16 => ⟨s.setKeys k16, rfl, fun k => State.key_eq_getLsbD _ k, rfl, (Keeps.refl s noReg []).toFrame⟩,
    fun x y => rfl, ⟨hostSkip s, rfl, BitVec.toNat_add _ _, ((Keeps.refl s noReg []).setPc _).toFrame⟩,
    ⟨hostPeek s, rfl, fun r => rfl, rfl, rfl, rfl, fun k => rfl, rfl, rfl, fun k => (s.key_eq_getLsbD k).symm⟩⟩

/-! ### The tick (R44, R45) -/

theorem tickDown_toNat (b : Byte) : (tickDown b).toNat = b.toNat - 1 := by
  unfold tickDown
  split <;> bv_omega

theorem hostTick_keeps {s t : State} {regs : Nibble → Prop} {parts : List Part} (h : Keeps s t regs parts)
    (hdt : .dt ∈ parts) (hst : .st ∈ parts) : Keeps s (hostTick t) regs parts :=
  (h.setDt hdt _).setSt hst _

theorem soundActive_iff (s : State) : soundActive s = true ↔ 0 < s.st.toNat := by
  unfold soundActive
  rw [bne_iff_ne]
  bv_omega

/-- Settles O45, from `tickDown` on naturals. -/
theorem tickCountsBothTimersDown : Obligations.TickCountsBothTimersDown := fun s =>
  ⟨tickDown_toNat s.dt, tickDown_toNat s.st, rfl,
    (hostTick_keeps (.refl s noReg [.dt, .st]) (by simp) (by simp)).toFrame, soundActive_iff s⟩

/-! ### Reset values (R301) -/

/-- Glyph g occupies the 5 bytes from 5 * g on (R33). -/
theorem fontByte_glyph_row (font : FontTable) (g r : Nat) (hg : g < 16) (hr : r < 5) :
    Config.fontByte font (5 * g + r) = font[g][r] := by
  have hdiv : (5 * g + r) / 5 = g := by omega
  have hmod : (5 * g + r) % 5 = r := by omega
  simp [Config.fontByte, hdiv, hmod, hg, hr]

theorem State.reset_readByte (a : Nat) :
    State.reset.readByte a = if a < 80 then Config.fontByte Config.defaultFont a else 0 := rfl

theorem State.reset_reg (r : Nibble) : State.reset.reg r = 0 := by
  simp [State.reg, State.reset]

/-- Settles O41: the font bytes one glyph at a time, and every other field as it is written down. -/
theorem resetValues : Obligations.ResetValues := by
  refine ⟨State.reset_reg, rfl, rfl, rfl, fun k => ?_, rfl, rfl, fun k _ => BitVec.getLsbD_zero, by decide,
    fun g r hg hr => ?_, fun a ha => ?_, Framebuffer.cell_clear, rfl, rfl⟩
  · simp [State.reset]
  · rw [State.reset_readByte, if_pos (by omega), fontByte_glyph_row _ g r hg hr]
  · rw [State.reset_readByte, if_neg (by omega)]

end Sys2Proof.Machine

/-!
SUPPORT. Waiting for a key (46_timers_and_keys.md R253, R255; 10_state.md R46): while no key is down, steps, ticks and
reads change nothing but the timers.
-/

namespace Sys2Proof.Machine

open Sys2Proof.Claims

/-- pc rests on an FX0A and no key is down. -/
structure State.Waiting (s : State) (x : Nibble) : Prop where
  pc   : s.pc.toNat ≤ 0xFFE
  word : wordAtPc s = wordXKK 0xF x 0x0A
  keys : s.keys = 0

theorem decode_wordXKK_ldVxK (x : Nibble) : decode (wordXKK 0xF x 0x0A) = .ok (.ldVxK x) := by
  simp [decode, decodeFamilyF]

theorem execLdVxK_noKey {s : State} (x : Nibble) (h : s.keys = 0) : execLdVxK x s = .next s := by
  have hnone : s.lowestKey = none := s.lowestKey_none.mpr fun k => by simp [State.key, h]
  rw [execLdVxK, hnone]
  rfl

/-- A step that waits changes nothing at all (R253). -/
theorem State.Waiting.step_eq {s : State} {x : Nibble} (h : s.Waiting x) : step s = .next s :=
  (step_eq_exec s (.ldVxK x) h.pc ((congrArg decode h.word).trans (decode_wordXKK_ldVxK x))).trans
    (execLdVxK_noKey x h.keys)

theorem State.Waiting.transact_step {s : State} {x : Nibble} (h : s.Waiting x) : transact .step s = (s, .ok) := by
  simp only [transact, stepTransaction, h.step_eq]

/-- The two states differ in the timers alone. -/
def State.SameButTimers (s t : State) : Prop := ∃ d e : Byte, t = (s.setDt d).setSt e

theorem State.SameButTimers.refl (s : State) : s.SameButTimers s := ⟨s.dt, s.st, rfl⟩

theorem State.SameButTimers.hostTick {s t : State} (h : s.SameButTimers t) : s.SameButTimers (hostTick t) := by
  obtain ⟨d, e, rfl⟩ := h
  exact ⟨tickDown d, tickDown e, rfl⟩

theorem State.SameButTimers.waiting {s t : State} {x : Nibble} (h : s.SameButTimers t) (hs : s.Waiting x) :
    t.Waiting x := by
  obtain ⟨d, e, rfl⟩ := h
  exact ⟨hs.pc, hs.word, hs.keys⟩

theorem State.SameButTimers.frame {s t : State} (h : s.SameButTimers t) : Frame s t noReg [.dt, .st] := by
  obtain ⟨d, e, rfl⟩ := h
  exact (((Keeps.refl s noReg [.dt, .st]).setDt (by simp) d).setSt (by simp) e).toFrame

theorem State.SameButTimers.pc {s t : State} (h : s.SameButTimers t) : t.pc = s.pc := by
  obtain ⟨d, e, rfl⟩ := h
  rfl

theorem State.SameButTimers.wordAtPc {s t : State} (h : s.SameButTimers t) : wordAtPc t = wordAtPc s := by
  obtain ⟨d, e, rfl⟩ := h
  rfl

/-- The wait goes on: no step, tick or read changes more than the timers, and no step fails. -/
theorem State.SameButTimers.transact_waitsOrLooks {s t : State} {x : Nibble} (hs : s.Waiting x) (h : s.SameButTimers t)
    {tr : Transaction} (htr : waitsOrLooks tr) :
    s.SameButTimers (transact tr t).1 ∧ (transact tr t).2.failed = false := by
  cases tr with
  | step =>
    rw [(h.waiting hs).transact_step]
    exact ⟨h, rfl⟩
  | hostTick => exact ⟨h.hostTick, rfl⟩
  | hostMemRead | hostFbRead | hostPeek => exact ⟨h, rfl⟩
  | hostReset | hostMemWrite | hostSetKeys | hostSkip => exact htr.elim

/-- Settles O40: the wait goes on along the list. -/
theorem keyWaitLastsUntilTheHostPressesAKey : Obligations.KeyWaitLastsUntilTheHostPressesAKey := by
  intro s x ts hpc hword hkeys hts
  have hrun : s.SameButTimers (transactAll ts s) :=
    transactAll_invariant (.refl s) fun tr htr t ht => (ht.transact_waitsOrLooks ⟨hpc, hword, hkeys⟩ (hts tr htr)).1
  exact ⟨hrun.pc, hrun.frame⟩

/-- While the host only calls step, the waiting state stays the same for ever. -/
theorem State.Waiting.stateAt_stepForever {s : State} {x : Nibble} (h : s.Waiting x) (n : Nat) :
    stateAt stepForever s n = s :=
  stateAt_invariant (P := (· = s)) rfl
    (fun _ _ ht => by rw [ht]; exact congrArg Prod.fst h.transact_step) n

/-- Settles O57: the wait goes on at every place of the infinite run. -/
theorem endlessKeyWaitIsAnInfiniteRun : Obligations.EndlessKeyWaitIsAnInfiniteRun := by
  intro s x hpc hword hkeys
  have hwait : s.Waiting x := ⟨hpc, hword, hkeys⟩
  refine ⟨fun n => ⟨hwait.stateAt_stepForever n, ?_⟩, fun sched hsched => ?_⟩
  · rw [replyAt, hwait.stateAt_stepForever n]
    exact congrArg Prod.snd hwait.transact_step
  · have hrun : ∀ n, s.SameButTimers (stateAt sched s n) :=
      stateAt_invariant (.refl s) fun n t ht => (ht.transact_waitsOrLooks hwait (hsched n)).1
    refine ⟨fun n => ((hrun n).transact_waitsOrLooks hwait (hsched n)).2,
      fun n => ⟨(hrun n).pc, (hrun n).wordAtPc, (hrun n).frame, fun hstep => ?_, fun htick => ?_⟩⟩
    · rw [replyAt, stateAt_succ, hstep, ((hrun n).waiting hwait).transact_step]
      exact ⟨rfl, rfl⟩
    · rw [stateAt_succ, htick]
      exact ⟨tickDown_toNat _, tickDown_toNat _⟩

end Sys2Proof.Machine

/-!
SUPPORT. Loading a ROM (20_memory.md R69; 70_reset_and_hazards.md R303): the host's single writes together are the block
write of the memory instructions.
-/

namespace Sys2Proof.Machine

open Sys2Proof.Claims

theorem State.setMem_writeBytes_readByte (s : State) (bs : List Byte) (base p : Nat) :
    (s.setMem (s.mem.writeBytes base bs)).readByte p =
      if h : base ≤ p ∧ p < base + bs.length then bs[p - base]'(by omega) else s.readByte p :=
  Memory.read_writeBytes bs s.mem base p

/-- Where the image fits in RAM, no address of it wraps. -/
theorem transactAll_romWritesFrom {image : List Byte} {base : Nat} (hfit : base + image.length ≤ Config.memSize)
    (s : State) :
    transactAll (romWritesFrom base image) s = s.setMem (s.mem.writeBytes base image) := by
  induction image generalizing base s with
  | nil => rfl
  | cons b image ih =>
    rw [List.length_cons] at hfit
    have hlt : base < 2 ^ 12 := Nat.lt_of_lt_of_le (by omega) hfit
    have hbase : (BitVec.ofNat 12 base).toNat = base := Nat.mod_eq_of_lt hlt
    have hwrite : (transact (.hostMemWrite (BitVec.ofNat 12 base) b) s).1 = s.setMem (s.mem.write base b) := by
      rw [transact, hostMemWrite, hbase]
    rw [romWritesFrom, transactAll, hwrite, ih (by omega)]
    rfl

theorem loadRom_of_le {image : List Byte} (h : image.length ≤ 3584) :
    loadRom image = some (romWritesFrom 0x200 image) :=
  if_pos h

theorem loadRom_of_gt {image : List Byte} (h : 3584 < image.length) : loadRom image = none :=
  if_neg (Nat.not_le.mpr h)

/-- Settles O46: the loading is one block write at 0x200. -/
theorem romIsLoadedVerbatimAt0x200 : Obligations.RomIsLoadedVerbatimAt0x200 := by
  refine fun image s => ⟨loadRom_of_gt, fun hlen => ⟨_, loadRom_of_le hlen, ?_⟩⟩
  have hfit : 0x200 + image.length ≤ Config.memSize := Nat.add_le_add_left hlen 0x200
  rw [transactAll_romWritesFrom hfit s]
  refine ⟨fun k hk => ?_, fun a ha => ?_, rfl, ((Keeps.refl s noReg [.ram]).setMem (.head _) _).toFrame⟩
  · rw [State.setMem_writeBytes_readByte, dif_pos (by omega)]
    simp only [Nat.add_sub_cancel_left]
  · rw [State.setMem_writeBytes_readByte, dif_neg (by omega)]

end Sys2Proof.Machine

/-!
SUPPORT. The decoder and the encoder (30_encoding.md R94 to R97, R102, R103, R105). `decode_form` says once what the
decoder can answer, `decode_eq_ok_iff` which instruction a word decodes to, and `exists_decode_eq_error_iff` which words
have none; the statements are read off these.
-/

namespace Sys2Proof

/-! ### From the instruction to its word and back -/

theorem wellFormed_sys_iff {nnn : Addr12} : (Instr.sys nnn).wellFormed = true ↔ nnn ≠ 0x0E0 ∧ nnn ≠ 0x0EE := by
  simp [Instr.wellFormed]

theorem decode_encode {i : Instr} (h : i.wellFormed = true) : decode (encode i) = .ok i := by
  cases i with
  | cls | ret => rfl
  | sys nnn =>
    obtain ⟨hcls, hret⟩ := wellFormed_sys_iff.mp h
    rw [encode, decode, fieldF_wordNNN, if_pos rfl, decodeFamily0, fieldNNN_wordNNN, if_neg hcls, if_neg hret]
  | jp | call | seImm | sneImm | ldImm | addImm | ldI | jpV0 | rnd | drw => simp [encode, decode]
  | seReg => simp [encode, decode, decodeFamily5]
  | ldReg | orReg | andReg | xorReg | addReg | subReg | shrReg | subnReg | shlReg =>
    simp [encode, decode, decodeFamily8]
  | sneReg => simp [encode, decode, decodeFamily9]
  | skp | sknp => simp [encode, decode, decodeFamilyE]
  | ldVxDt | ldVxK | ldDtVx | ldStVx | addIVx | ldFVx | ldBVx | ldMemVx | ldVxMem =>
    simp [encode, decode, decodeFamilyF]

/-- Settles O3, by cases on the instruction. -/
theorem decodeOfEncodeIsTheInstruction : Obligations.DecodeOfEncodeIsTheInstruction :=
  fun _ h => decode_encode h

/-! ### The families of the decoder -/

/-- Everything `decode` can answer: the family of the word, and what that family answers (R94, R97). -/
inductive DecodeForm (w : Word) : Decoded → Prop
  | family0 (hF : fieldF w = 0x0) : DecodeForm w (decodeFamily0 w)
  | jp (hF : fieldF w = 0x1) : DecodeForm w (.ok (.jp (fieldNNN w)))
  | call (hF : fieldF w = 0x2) : DecodeForm w (.ok (.call (fieldNNN w)))
  | seImm (hF : fieldF w = 0x3) : DecodeForm w (.ok (.seImm (fieldX w) (fieldKK w)))
  | sneImm (hF : fieldF w = 0x4) : DecodeForm w (.ok (.sneImm (fieldX w) (fieldKK w)))
  | family5 (hF : fieldF w = 0x5) : DecodeForm w (decodeFamily5 w)
  | ldImm (hF : fieldF w = 0x6) : DecodeForm w (.ok (.ldImm (fieldX w) (fieldKK w)))
  | addImm (hF : fieldF w = 0x7) : DecodeForm w (.ok (.addImm (fieldX w) (fieldKK w)))
  | family8 (hF : fieldF w = 0x8) : DecodeForm w (decodeFamily8 w)
  | family9 (hF : fieldF w = 0x9) : DecodeForm w (decodeFamily9 w)
  | ldI (hF : fieldF w = 0xA) : DecodeForm w (.ok (.ldI (fieldNNN w)))
  | jpV0 (hF : fieldF w = 0xB) : DecodeForm w (.ok (.jpV0 (fieldNNN w)))
  | rnd (hF : fieldF w = 0xC) : DecodeForm w (.ok (.rnd (fieldX w) (fieldKK w)))
  | drw (hF : fieldF w = 0xD) : DecodeForm w (.ok (.drw (fieldX w) (fieldY w) (fieldN w)))
  | familyE (hF : fieldF w = 0xE) : DecodeForm w (decodeFamilyE w)
  | familyF (hF : fieldF w = 0xF) : DecodeForm w (decodeFamilyF w)

theorem DecodeForm.ite {w : Word} {c : Prop} [Decidable c] {a b : Decoded} (ha : c → DecodeForm w a)
    (hb : ¬ c → DecodeForm w b) : DecodeForm w (if c then a else b) :=
  iteInduction ha hb

theorem decode_form (w : Word) : DecodeForm w (decode w) :=
  .ite .family0 fun h0 => .ite .jp fun h1 => .ite .call fun h2 => .ite .seImm fun h3 => .ite .sneImm fun h4 =>
  .ite .family5 fun h5 => .ite .ldImm fun h6 => .ite .addImm fun h7 => .ite .family8 fun h8 => .ite .family9 fun h9 =>
  .ite .ldI fun hA => .ite .jpV0 fun hB => .ite .rnd fun hC => .ite .drw fun hD => .ite .familyE fun hE =>
  .familyF (by bv_omega)

/-! ### From the word to its instruction and back -/

theorem wordNNN_of_fieldF {w : Word} {f : Nibble} (hF : fieldF w = f) : wordNNN f (fieldNNN w) = w := by
  rw [← hF, wordNNN_fields]

theorem wordXKK_of_fieldF {w : Word} {f : Nibble} (hF : fieldF w = f) : wordXKK f (fieldX w) (fieldKK w) = w := by
  rw [← hF, wordXKK_fields]

theorem wordXKK_of_fieldF_fieldKK {w : Word} {f : Nibble} {kk : Byte} (hF : fieldF w = f) (hKK : fieldKK w = kk) :
    wordXKK f (fieldX w) kk = w := by
  rw [← hKK, wordXKK_of_fieldF hF]

theorem wordXYN_of_fieldF {w : Word} {f : Nibble} (hF : fieldF w = f) :
    wordXYN f (fieldX w) (fieldY w) (fieldN w) = w := by
  rw [← hF, wordXYN_fields]

theorem wordXYN_of_fieldF_fieldN {w : Word} {f n : Nibble} (hF : fieldF w = f) (hN : fieldN w = n) :
    wordXYN f (fieldX w) (fieldY w) n = w := by
  rw [← hN, wordXYN_of_fieldF hF]

section Families
variable {w : Word} {i : Instr}

theorem encode_of_decodeFamily0 (hF : fieldF w = 0x0) (h : decodeFamily0 w = .ok i) :
    encode i = w ∧ i.wellFormed = true := by
  have hw := wordNNN_of_fieldF hF
  unfold decodeFamily0 at h
  split_ifs at h with hcls hret <;> cases h
  · exact ⟨by rw [← hw, hcls]; rfl, rfl⟩
  · exact ⟨by rw [← hw, hret]; rfl, rfl⟩
  · exact ⟨hw, wellFormed_sys_iff.mpr ⟨hcls, hret⟩⟩

theorem encode_of_decodeFamily5 (hF : fieldF w = 0x5) (h : decodeFamily5 w = .ok i) :
    encode i = w ∧ i.wellFormed = true := by
  unfold decodeFamily5 at h
  split_ifs at h with hN
  cases h
  exact ⟨wordXYN_of_fieldF_fieldN hF hN, rfl⟩

theorem encode_of_decodeFamily8 (hF : fieldF w = 0x8) (h : decodeFamily8 w = .ok i) :
    encode i = w ∧ i.wellFormed = true := by
  unfold decodeFamily8 at h
  split_ifs at h <;> cases h <;> exact ⟨wordXYN_of_fieldF_fieldN hF ‹_›, rfl⟩

theorem encode_of_decodeFamily9 (hF : fieldF w = 0x9) (h : decodeFamily9 w = .ok i) :
    encode i = w ∧ i.wellFormed = true := by
  unfold decodeFamily9 at h
  split_ifs at h with hN
  cases h
  exact ⟨wordXYN_of_fieldF_fieldN hF hN, rfl⟩

theorem encode_of_decodeFamilyE (hF : fieldF w = 0xE) (h : decodeFamilyE w = .ok i) :
    encode i = w ∧ i.wellFormed = true := by
  unfold decodeFamilyE at h
  split_ifs at h <;> cases h <;> exact ⟨wordXKK_of_fieldF_fieldKK hF ‹_›, rfl⟩

theorem encode_of_decodeFamilyF (hF : fieldF w = 0xF) (h : decodeFamilyF w = .ok i) :
    encode i = w ∧ i.wellFormed = true := by
  unfold decodeFamilyF at h
  split_ifs at h <;> cases h <;> exact ⟨wordXKK_of_fieldF_fieldKK hF ‹_›, rfl⟩

end Families

/-- Each family puts the word together again from the fields it read. -/
theorem DecodeForm.encode_eq {w : Word} {d : Decoded} {i : Instr} (form : DecodeForm w d) (h : d = .ok i) :
    encode i = w ∧ i.wellFormed = true := by
  cases form with
  | family0 hF => exact encode_of_decodeFamily0 hF h
  | family5 hF => exact encode_of_decodeFamily5 hF h
  | family8 hF => exact encode_of_decodeFamily8 hF h
  | family9 hF => exact encode_of_decodeFamily9 hF h
  | familyE hF => exact encode_of_decodeFamilyE hF h
  | familyF hF => exact encode_of_decodeFamilyF hF h
  | jp hF | call hF | ldI hF | jpV0 hF => cases h; exact ⟨wordNNN_of_fieldF hF, rfl⟩
  | seImm hF | sneImm hF | ldImm hF | addImm hF | rnd hF => cases h; exact ⟨wordXKK_of_fieldF hF, rfl⟩
  | drw hF => cases h; exact ⟨wordXYN_of_fieldF hF, rfl⟩

theorem encode_of_decode {w : Word} {i : Instr} (h : decode w = .ok i) : encode i = w ∧ i.wellFormed = true :=
  (decode_form w).encode_eq h

/-- Settles O4, by cases on the family of the word. -/
theorem encodeOfDecodeIsTheWord : Obligations.EncodeOfDecodeIsTheWord :=
  fun _ _ h => encode_of_decode h

/-- What a word decodes to: the one well-formed instruction whose word it is (R102, R105). -/
theorem decode_eq_ok_iff {w : Word} {i : Instr} : decode w = .ok i ↔ encode i = w ∧ i.wellFormed = true :=
  ⟨encode_of_decode, fun ⟨hw, hwf⟩ => hw ▸ decode_encode hwf⟩

/-! ### Selection by match and mask (R95) -/

open Laws.EncodingRow in
/-- The word of every instruction matches its row. -/
theorem encodingRow : ∀ i : Instr, Statement i
  | .cls => cls | .ret => ret | .sys _ => sys _ | .jp _ => jp _ | .call _ => call _
  | .seImm _ _ => seImm _ _ | .sneImm _ _ => sneImm _ _ | .seReg _ _ => seReg _ _
  | .ldImm _ _ => ldImm _ _ | .addImm _ _ => addImm _ _
  | .ldReg _ _ => ldReg _ _ | .orReg _ _ => orReg _ _ | .andReg _ _ => andReg _ _ | .xorReg _ _ => xorReg _ _
  | .addReg _ _ => addReg _ _ | .subReg _ _ => subReg _ _ | .shrReg _ _ => shrReg _ _
  | .subnReg _ _ => subnReg _ _ | .shlReg _ _ => shlReg _ _ | .sneReg _ _ => sneReg _ _
  | .ldI _ => ldI _ | .jpV0 _ => jpV0 _ | .rnd _ _ => rnd _ _ | .drw _ _ _ => drw _ _ _
  | .skp _ => skp _ | .sknp _ => sknp _ | .ldVxDt _ => ldVxDt _ | .ldVxK _ => ldVxK _
  | .ldDtVx _ => ldDtVx _ | .ldStVx _ => ldStVx _ | .addIVx _ => addIVx _ | .ldFVx _ => ldFVx _
  | .ldBVx _ => ldBVx _ | .ldMemVx _ => ldMemVx _ | .ldVxMem _ => ldVxMem _

/-- A mask keeps the fields it covers: the family, and in the two masks after this one also N or KK. -/
theorem fieldF_of_mask {w m : Word} (h : w &&& 0xF000 = m) : fieldF w = m.extractLsb' 12 4 := by
  subst h
  rw [BitVec.extractLsb'_and]
  exact BitVec.and_allOnes.symm

theorem fields_of_mask_n {w m : Word} (h : w &&& 0xF00F = m) :
    fieldF w = m.extractLsb' 12 4 ∧ fieldN w = m.extractLsb' 0 4 := by
  subst h
  simpa [fieldF, fieldN, BitVec.extractLsb'_and] using ⟨BitVec.and_allOnes.symm, BitVec.and_allOnes.symm⟩

theorem fields_of_mask_kk {w m : Word} (h : w &&& 0xF0FF = m) :
    fieldF w = m.extractLsb' 12 4 ∧ fieldKK w = m.extractLsb' 0 8 := by
  subst h
  simpa [fieldF, fieldKK, BitVec.extractLsb'_and] using ⟨BitVec.and_allOnes.symm, BitVec.and_allOnes.symm⟩

/-! ### Words that match no row (R96) -/

/-- The words R96 lists under either SYS_POLICY, family by family. -/
def NoRow (w : Word) : Prop :=
  (fieldF w = 0x5 ∧ fieldN w ≠ 0x0) ∨
    (fieldF w = 0x8 ∧ fieldN w ∈ ([0x8, 0x9, 0xA, 0xB, 0xC, 0xD, 0xF] : List Nibble)) ∨
    (fieldF w = 0x9 ∧ fieldN w ≠ 0x0) ∨
    (fieldF w = 0xE ∧ fieldKK w ∉ ([0x9E, 0xA1] : List Byte)) ∨
    (fieldF w = 0xF ∧ fieldKK w ∉ ([0x07, 0x0A, 0x15, 0x18, 0x1E, 0x29, 0x33, 0x55, 0x65] : List Byte))

@[simp] theorem isOk_ok (i : Instr) : Except.isOk (.ok i : Decoded) = true := rfl

@[simp] theorem isOk_error (r : DecodeReject) : Except.isOk (.error r : Decoded) = false := rfl

/-- A family's chain of tests answers an instruction when one of the tests holds. -/
theorem isOk_ite_ok {c : Prop} [Decidable c] {i : Instr} {d : Decoded} :
    (if c then .ok i else d : Decoded).isOk = true ↔ c ∨ d.isOk = true := by
  split <;> simp [*]

theorem decodeFamily0_isOk (w : Word) : (decodeFamily0 w).isOk = true := by
  simp [decodeFamily0, isOk_ite_ok]

theorem decodeFamily5_isOk (w : Word) : (decodeFamily5 w).isOk = true ↔ fieldN w = 0x0 := by
  simp [decodeFamily5, isOk_ite_ok]

/-- The N of family 8's rows and those of its illegal words are all the nibbles. -/
theorem mem_family8_rows_iff (n : Nibble) : n ∈ ([0x0, 0x1, 0x2, 0x3, 0x4, 0x5, 0x6, 0x7, 0xE] : List Nibble) ↔
    n ∉ ([0x8, 0x9, 0xA, 0xB, 0xC, 0xD, 0xF] : List Nibble) := by
  decide +revert

theorem decodeFamily8_isOk (w : Word) : (decodeFamily8 w).isOk = true ↔
    fieldN w ∉ ([0x8, 0x9, 0xA, 0xB, 0xC, 0xD, 0xF] : List Nibble) := by
  rw [← mem_family8_rows_iff]
  simp [decodeFamily8, isOk_ite_ok]

theorem decodeFamily9_isOk (w : Word) : (decodeFamily9 w).isOk = true ↔ fieldN w = 0x0 := by
  simp [decodeFamily9, isOk_ite_ok]

theorem decodeFamilyE_isOk (w : Word) : (decodeFamilyE w).isOk = true ↔ fieldKK w ∈ ([0x9E, 0xA1] : List Byte) := by
  simp [decodeFamilyE, isOk_ite_ok]

theorem decodeFamilyF_isOk (w : Word) : (decodeFamilyF w).isOk = true ↔
    fieldKK w ∈ ([0x07, 0x0A, 0x15, 0x18, 0x1E, 0x29, 0x33, 0x55, 0x65] : List Byte) := by
  simp [decodeFamilyF, isOk_ite_ok]

theorem DecodeForm.isOk_iff {w : Word} {d : Decoded} (form : DecodeForm w d) : d.isOk = true ↔ ¬ NoRow w := by
  unfold NoRow
  cases form with
  | family0 hF => simp [hF, decodeFamily0_isOk]
  | family5 hF => simp [hF, decodeFamily5_isOk]
  | family8 hF => simp [hF, decodeFamily8_isOk]
  | family9 hF => simp [hF, decodeFamily9_isOk]
  | familyE hF => simp [hF, decodeFamilyE_isOk, -List.mem_cons]
  | familyF hF => simp [hF, decodeFamilyF_isOk, -List.mem_cons]
  | jp hF | call hF | ldI hF | jpV0 hF | seImm hF | sneImm hF | ldImm hF | addImm hF | rnd hF | drw hF =>
    simp [hF]

/-- A word that matches a row has the row's family and sub-opcode, which R96 does not list. -/
theorem not_noRow_of_match {w : Word} {i : Instr} (h : w &&& (opcodeRow i).2 = (opcodeRow i).1) : ¬ NoRow w := by
  unfold NoRow
  cases i with
  | cls | ret =>
    have hw := BitVec.and_allOnes.symm.trans h
    rw [hw]
    decide
  | sys | jp | call | ldI | jpV0 | seImm | sneImm | ldImm | addImm | rnd | drw =>
    simp [fieldF_of_mask h, opcodeRow]
  | seReg | ldReg | orReg | andReg | xorReg | addReg | subReg | shrReg | subnReg | shlReg | sneReg =>
    obtain ⟨hF, hN⟩ := fields_of_mask_n h
    simp [hF, hN, opcodeRow]
  | skp | sknp | ldVxDt | ldVxK | ldDtVx | ldStVx | addIVx | ldFVx | ldBVx | ldMemVx | ldVxMem =>
    obtain ⟨hF, hKK⟩ := fields_of_mask_kk h
    simp [hF, hKK, opcodeRow]

theorem decode_isOk_iff (w : Word) : (decode w).isOk = true ↔ ¬ NoRow w := (decode_form w).isOk_iff

theorem exists_decode_eq_ok_iff {w : Word} : (∃ i, decode w = .ok i) ↔ ¬ NoRow w := by
  rw [← decode_isOk_iff]
  cases decode w <;> simp

theorem exists_decode_eq_error_iff {w : Word} : (∃ r, decode w = .error r) ↔ NoRow w := by
  rw [← not_iff_not, ← decode_isOk_iff]
  cases decode w <;> simp

/-- Settles O5: a word that decodes is the word of its instruction, which matches the row; a word that matches a row is
not one of those without. -/
theorem decodeSelectsByMatchAndMask : Obligations.DecodeSelectsByMatchAndMask := by
  refine ⟨fun w i h => ?_, fun w i h => exists_decode_eq_ok_iff.mpr (not_noRow_of_match h)⟩
  rw [← (encode_of_decode h).1]
  exact encodingRow i

/-- R103: SYS's words are those of family 0 that are neither CLS nor RET. -/
theorem exists_decode_eq_sys_iff {w : Word} : (∃ nnn, decode w = .ok (.sys nnn)) ↔
    fieldF w = 0x0 ∧ fieldNNN w ∉ ([0x0E0, 0x0EE] : List Addr12) := by
  simp only [decode_eq_ok_iff, wellFormed_sys_iff, List.mem_cons, List.not_mem_nil, or_false, not_or]
  constructor
  · rintro ⟨nnn, rfl, hne⟩
    exact ⟨fieldF_wordNNN _ _, by rwa [encode, fieldNNN_wordNNN]⟩
  · rintro ⟨hF, hne⟩
    exact ⟨fieldNNN w, wordNNN_of_fieldF hF, hne⟩

/-- A word is illegal when it matches no row, or is SYS's under decode_error. -/
theorem illegalWord_iff {p : SysPolicy} {w : Word} : illegalWord p w = true ↔
    (∃ r, decode w = .error r) ∨ (p = .decodeError ∧ ∃ nnn, decode w = .ok (.sys nnn)) := by
  unfold illegalWord
  split
  · next r hr => simp [hr]
  · next nnn hsys => simp [hsys]
  · next i hne hi => simpa [hi] using fun _ nnn => hne nnn

/-- Settles O6, from the words without a row and the words of SYS. -/
theorem illegalWordsByFamily : Obligations.IllegalWordsByFamily := by
  intro p w
  rw [illegalWord_iff, exists_decode_eq_error_iff, exists_decode_eq_sys_iff]
  simp only [NoRow, or_assoc]
  exact Iff.rfl

/-! ### Fixed words -/

/-- Settles O1, by running the decoder. -/
theorem sourceRomWordsDecode : Obligations.SourceRomWordsDecode := by
  unfold Obligations.SourceRomWordsDecode
  decide

/-- Settles O2, by running the decoder. -/
theorem oneWordOfEachFamilyDecodes : Obligations.OneWordOfEachFamilyDecodes := by
  unfold Obligations.OneWordOfEachFamilyDecodes
  decide

end Sys2Proof

/-!
SUPPORT. DecodeError (60_exceptions.md R272): the decoder's, and SYS's under SYS_POLICY = decode_error (log 4).
-/

namespace Sys2Proof.Machine

open Sys2Proof.Claims

/-- A step whose fetched word has no row raises with that word. -/
theorem step_of_decode_error {s : State} {r : DecodeReject} (hpc : s.pc.toNat ≤ 0xFFE)
    (h : decode (wordAtPc s) = .error r) : step s = .fault (.decodeError s.pc (wordAtPc s)) := by
  have hfetched : decode (joinBytes (s.readByte s.pc.toNat) (s.readByte (s.pc.toNat + 1))) = .error r := h
  simp only [step, s.fetch_ok hpc, hfetched]
  rfl

theorem execSys_decodeError {s : State} (nnn : Addr12) (hp : s.cfg.sysPolicy = .decodeError) :
    execSys nnn s = .fault (.decodeError s.pc (encode (.sys nnn))) := by
  rw [execSys, hp]
  rfl

/-- Settles O7: an illegal word has no row, or is SYS's under decode_error; and no other instruction's error is a
DecodeError. -/
theorem decodeErrorExactlyOnIllegalWords : Obligations.DecodeErrorExactlyOnIllegalWords := by
  refine fun s hpc => ⟨fun hill => ?_, fun p w hstep => illegalWord_iff.mpr ?_⟩
  · obtain ⟨r, hr⟩ | ⟨hp, nnn, hsys⟩ := illegalWord_iff.mp hill
    · exact step_of_decode_error hpc hr
    · rw [step_eq_exec s _ hpc hsys, ← (encode_of_decode hsys).1]
      exact execSys_decodeError nnn hp
  · obtain ⟨hgt, -⟩ | ⟨-, _, rfl, ⟨herr, -⟩ | ⟨i, hi, hexec⟩⟩ := step_fault_cases hstep
    · omega
    · exact .inl herr
    · obtain ⟨nnn, rfl, hp, -⟩ | h := exec_fault_form hexec
      · exact .inr ⟨hp, nnn, hi⟩
      · simp at h

end Sys2Proof.Machine

/-!
SUPPORT. Fetch and step (40_fetch_decode_dispatch.md R121, R122, R132): the fetched word as a number, and the absence of
refusals.
-/

namespace Sys2Proof.Machine

open Sys2Proof.Claims

/-! ### Fetch (R122) -/

/-- Big-endian: the high byte counts 256 times (R62). -/
theorem joinBytes_toNat (hi lo : Byte) : (joinBytes hi lo).toNat = 256 * hi.toNat + lo.toNat := by
  rw [joinBytes, BitVec.toNat_append, ← Nat.shiftLeft_add_eq_or_of_lt lo.isLt, Nat.shiftLeft_eq]
  omega

/-- Settles O8: above 0xFFE the fetch reports max(pc, 4096), and up to there it joins the two bytes. -/
theorem fetchChecksAndCombinesBigEndian : Obligations.FetchChecksAndCombinesBigEndian := by
  refine fun s => ⟨fun habove => ?_, fun hlast => ?_, fun hbelow => ?_⟩
  · have hmax : max s.pc.toNat 4096 = s.pc.toNat := by omega
    rw [step_fetch_error (by omega), hmax]
  · have hmax : max s.pc.toNat 4096 = 4096 := by omega
    rw [step_fetch_error (by omega), hmax]
  · exact ⟨_, s.fetch_ok (by omega), joinBytes_toNat _ _⟩

/-- Settles O9: `wordAtPc` is the word that fetch joins. -/
theorem stepRunsTheDecodedInstruction : Obligations.StepRunsTheDecodedInstruction := step_eq_exec

/-! ### No step refuses (R121) -/

theorem State.checked_ne_refused (s : State) (w : Word) (base len : Nat) (next : State) (r : Refusal) :
    s.checked w base len next ≠ .refused r := by
  obtain ⟨-, h⟩ | ⟨-, -, h⟩ := s.checked_cases w base len next <;> simp [h]

theorem State.skipOnKey_ne_refused (s : State) (w : Word) (x : Nibble) (want : Bool) (r : Refusal) :
    s.skipOnKey w x want ≠ .refused r := by
  unfold State.skipOnKey
  split
  · simp
  · exact s.raise_ne_refused r _ _

/-- No arm of the dispatch refuses: an instruction that may raise answers a state or an error, every other a state. -/
theorem exec_ne_refused (i : Instr) (s : State) (r : Refusal) : exec i s ≠ .refused r := by
  cases i
  case ret => obtain ⟨-, h⟩ | ⟨k, -, h⟩ := execRet_cases s <;> simp [exec, h]
  case call nnn => obtain ⟨-, h⟩ | ⟨hlt, h⟩ := execCall_cases nnn s <;> simp [exec, h]
  case sys nnn =>
    simp only [exec, execSys]
    split
    · exact s.raise_ne_refused r _ _
    · simp
  case ldVxK x =>
    simp only [exec, execLdVxK]
    split <;> simp
  case skp x => exact s.skipOnKey_ne_refused _ x true r
  case sknp x => exact s.skipOnKey_ne_refused _ x false r
  case drw x y n => exact s.checked_ne_refused _ _ _ _ r
  case ldBVx x => exact s.checked_ne_refused _ _ _ _ r
  case ldMemVx x => exact s.checked_ne_refused _ _ _ _ r
  case ldVxMem x => exact s.checked_ne_refused _ _ _ _ r
  all_goals nofun

/-- Neither the fetch, nor the decoder, nor an instruction refuses. -/
theorem step_ne_refused (s : State) (r : Refusal) : step s ≠ .refused r := by
  unfold step
  split
  · exact s.raise_ne_refused r _ _
  · split
    · exact s.raise_ne_refused r _ _
    · exact exec_ne_refused _ s r

/-! ### The answer of a step transaction (R121, R128, R271) -/

theorem transact_step_of_next {s t : State} (h : step s = .next t) : transact .step s = (t, .ok) := by
  simp only [transact, stepTransaction, h]

theorem transact_step_of_fault {s : State} {f : Fault} (h : step s = .fault f) :
    transact .step s = (s, .err (errRecord f)) := by
  simp only [transact, stepTransaction, h]

/-- The codes of R271. -/
theorem errRecord_code_bounds (f : Fault) : 1 ≤ (errRecord f).code.toNat ∧ (errRecord f).code.toNat ≤ 4 := by
  cases f <;> simp [errRecord]

/-- Settles O11, by the answers of a step, of which a refusal is none. -/
theorem stepReturnsOkOrAnErrorThatCommitsNothing : Obligations.StepReturnsOkOrAnErrorThatCommitsNothing := by
  intro s
  cases h : step s with
  | next t =>
    have htr := transact_step_of_next h
    exact .inl ⟨t, rfl, htr, by rw [htr, errCode]⟩
  | fault f =>
    have htr := transact_step_of_fault h
    exact .inr ⟨f, rfl, htr, by rw [htr, errCode], errRecord_code_bounds f⟩
  | refused r => exact absurd h (step_ne_refused s r)

end Sys2Proof.Machine

/-!
SUPPORT. Family 0 and the jumps (41_flow_and_system.md R140, R141, R143, R145), and a return after its call (R142, R144).
-/

namespace Sys2Proof.Machine

open Sys2Proof.Claims

/-! ### Moves of pc alone -/

theorem State.setPc_frame (s : State) (a : Word) : Frame s (s.setPc a) noReg [] :=
  ((Keeps.refl s noReg []).setPc a).toFrame

theorem State.setPc_self {s : State} {a : Word} (h : s.pc = a) : s.setPc a = s := by
  subst h
  rfl

/-! ### The meanings -/

theorem execSys_nop {s : State} (nnn : Addr12) (hp : s.cfg.sysPolicy = .nop) : execSys nnn s = .next s.advance := by
  rw [execSys, hp]

/-- A jump overwrites the increment of R124. -/
theorem execJp_eq (nnn : Addr12) (s : State) : execJp nnn s = .next (s.setPc (zext16 nnn)) := rfl

theorem execJpV0_eq (nnn : Addr12) (s : State) :
    execJpV0 nnn s = .next (s.setPc (zext16 nnn + zext16 (s.reg 0x0))) := rfl

/-- The sum of R145 is at most 0xFFF + 0xFF, so that 16 bits hold it. -/
theorem jumpV0_target_toNat (nnn : Addr12) (b : Byte) : (zext16 nnn + zext16 b).toNat = nnn.toNat + b.toNat := by
  rw [BitVec.toNat_add, BitVec.toNat_setWidth_of_le (by decide), BitVec.toNat_setWidth_of_le (by decide)]
  omega

/-! ### The statements -/

/-- Settles O13, by the two policies. -/
theorem sysFollowsThePolicy : Obligations.SysFollowsThePolicy := fun s nnn =>
  ⟨fun hcls hret => decode_eq_ok_iff.mpr ⟨rfl, wellFormed_sys_iff.mpr ⟨hcls, hret⟩⟩, execSys_decodeError nnn,
    fun hp => ⟨s.advance, execSys_nop nnn hp, rfl, s.setPc_frame _⟩⟩

/-- Settles O14: the framebuffer is the only part written, by the cleared one. -/
theorem clearScreenClearsEveryCell : Obligations.ClearScreenClearsEveryCell :=
  ⟨decode_eq_ok_iff.mpr ⟨rfl, rfl⟩, fun s =>
    ⟨_, rfl, Framebuffer.cell_clear, rfl, ((Keeps.refl s noReg [.fb]).advance.setFb (.head _) _).toFrame⟩⟩

/-- Settles O16: the next state is the old one with another pc. -/
theorem jumpGoesToTheTarget : Obligations.JumpGoesToTheTarget := by
  intro s nnn
  have htarget : (zext16 nnn).toNat = nnn.toNat := BitVec.toNat_setWidth_of_le (by decide)
  refine ⟨decode_eq_ok_iff.mpr ⟨rfl, rfl⟩, _, execJp_eq nnn s, htarget, s.setPc_frame _, fun hself => ?_,
    fun hlast => ?_⟩
  · exact State.setPc_self (BitVec.eq_of_toNat_eq (hself.trans htarget.symm))
  · subst hlast
    exact step_fetch_error (by simp)

/-- Settles O18: the sum does not wrap, and above 0xFFE the fetch raises. -/
theorem jumpV0AddsWithoutWrapping : Obligations.JumpV0AddsWithoutWrapping := fun s nnn =>
  ⟨decode_eq_ok_iff.mpr ⟨rfl, rfl⟩, _, execJpV0_eq nnn s, jumpV0_target_toNat nnn _, s.setPc_frame _,
    step_fetch_error⟩

/-! ### A return after a call -/

/-- A push fills the slot that SP named. -/
theorem State.push_stack_slot (s : State) (a : Word) (h : s.sp.val < 16) :
    (s.push a h).stack[(⟨s.sp.val, h⟩ : Fin 16)] = a := by
  simp

/-- Settles O19: RET pops the slot that CALL filled with pc0 + 2. -/
theorem returnAfterCallGoesToTheNextInstruction : Obligations.ReturnAfterCallGoesToTheNextInstruction := by
  intro s t u nnn hcall hstack hsp
  obtain ⟨h16, rfl⟩ := exec_next_form hcall
  have hframe : u.sp.val = s.sp.val + 1 := congrArg Fin.val hsp
  refine ⟨_, execRet_next (k := ⟨s.sp.val, h16⟩) hframe, ?_, ?_⟩
  · rw [State.setPc_pc, hstack]
    exact s.push_stack_slot _ h16
  · apply Fin.ext
    simp [hframe]

end Sys2Proof.Machine

/-!
SUPPORT. The skips (42_skips.md R160 to R167): SE and SKP skip on a condition, SNE and SKNP on its negation.
-/

namespace Sys2Proof.Machine

open Sys2Proof.Claims

/-! ### A skip and its negation (R160) -/

section Skips

variable {i j : Instr} {s : State} {c : Bool}

/-- An instruction that only skips moves pc and keeps everything else. -/
theorem movesPcTo_of_skipIf (h : exec i s = .next (s.skipIf c)) :
    movesPcTo i s (if c then s.pc + 4 else s.pc + 2) :=
  ⟨_, h, s.skipIf_pc c, ((Keeps.refl s noReg []).skipIf c).toFrame⟩

/-- Where `i` skips on a condition and `j` on its negation, exactly one of the two skips. -/
theorem movesPcTo_of_skipIf_not (hi : exec i s = .next (s.skipIf c)) (hj : exec j s = .next (s.skipIf !c)) :
    (c = true → movesPcTo i s (s.pc + 4) ∧ movesPcTo j s (s.pc + 2)) ∧
      (c = false → movesPcTo i s (s.pc + 2) ∧ movesPcTo j s (s.pc + 4)) := by
  have hmoves := And.intro (movesPcTo_of_skipIf hi) (movesPcTo_of_skipIf hj)
  cases c with
  | true => exact ⟨fun _ => hmoves, nofun⟩
  | false => exact ⟨nofun, fun _ => hmoves⟩

end Skips

/-! ### The skips on a key (R165, R166, R167) -/

/-- The key that an index names, where R167 accepts it. -/
theorem keyIndex_of_accepted {m : KeyIndexMode} {k : Byte} (h : k.toNat ≤ 15 ∨ m = .lowNibble) :
    keyIndex m k = some (Fin.ofNat 16 k.toNat) := by
  obtain hle | rfl := h
  · have hlt : k.toNat < 16 := by omega
    rw [keyIndex_low m k hlt]
    exact congrArg some (Fin.ext (Nat.mod_eq_of_lt hlt).symm)
  · exact keyIndex_lowNibble k

theorem State.skipOnKey_of_accepted {s : State} {x : Nibble}
    (h : (s.reg x).toNat ≤ 15 ∨ s.cfg.keyIndexMode = .lowNibble) (w : Word) (want : Bool) :
    s.skipOnKey w x want = .next (s.skipIf (s.keys.getLsbD ((s.reg x).toNat % 16) == want)) := by
  rw [State.skipOnKey, keyIndex_of_accepted h]
  rfl

theorem State.skipOnKey_of_bad_index {s : State} {x : Nibble} (h : 15 < (s.reg x).toNat)
    (hm : s.cfg.keyIndexMode = .fault) (w : Word) (want : Bool) :
    s.skipOnKey w x want = .fault (.addressOutOfRange s.pc w (s.reg x).toNat .keys) := by
  rw [State.skipOnKey, hm, keyIndex_fault _ h]
  rfl

/-- Settles O22: an accepted index names one key, which SKP tests for down and SKNP for up; any other index raises. -/
theorem skipsTestTheKey : Obligations.SkipsTestTheKey := by
  intro s x
  refine ⟨decode_eq_ok_iff.mpr ⟨rfl, rfl⟩, decode_eq_ok_iff.mpr ⟨rfl, rfl⟩, fun hbad hm => ?_, fun hok => ?_⟩
  · exact ⟨State.skipOnKey_of_bad_index hbad hm _ true, State.skipOnKey_of_bad_index hbad hm _ false⟩
  · have hskp : exec (.skp x) s = _ := State.skipOnKey_of_accepted hok _ true
    have hsknp : exec (.sknp x) s = _ := State.skipOnKey_of_accepted hok _ false
    rw [beq_true] at hskp
    rw [beq_false] at hsknp
    exact movesPcTo_of_skipIf_not hskp hsknp

/-! ### The skips on a comparison (R161 to R164) -/

/-- Settles O20: SE skips on equality and SNE on its negation. -/
theorem skipsCompareWithTheImmediate : Obligations.SkipsCompareWithTheImmediate := by
  intro s x kk
  obtain ⟨heq, hne⟩ := movesPcTo_of_skipIf_not (i := .seImm x kk) (j := .sneImm x kk) (s := s) rfl rfl
  exact ⟨decode_eq_ok_iff.mpr ⟨rfl, rfl⟩, decode_eq_ok_iff.mpr ⟨rfl, rfl⟩, fun h => heq (beq_iff_eq.mpr h),
    fun h => hne (beq_eq_false_iff_ne.mpr h)⟩

/-- In families 5 and 9 only N = 0 has a row (R96). -/
theorem decode_family5_noRow (x y : Nibble) {n : Nibble} (hn : n ≠ 0x0) :
    decode (wordXYN 0x5 x y n) = .error (.noRow (wordXYN 0x5 x y n)) := by
  simpa [decode, decodeFamily5] using hn

theorem decode_family9_noRow (x y : Nibble) {n : Nibble} (hn : n ≠ 0x0) :
    decode (wordXYN 0x9 x y n) = .error (.noRow (wordXYN 0x9 x y n)) := by
  simpa [decode, decodeFamily9] using hn

/-- Settles O21: as for the immediate, and the other words of families 5 and 9 have no row. -/
theorem skipsCompareTwoRegisters : Obligations.SkipsCompareTwoRegisters := by
  intro s x y
  obtain ⟨heq, hne⟩ := movesPcTo_of_skipIf_not (i := .seReg x y) (j := .sneReg x y) (s := s) rfl rfl
  exact ⟨decode_eq_ok_iff.mpr ⟨rfl, rfl⟩, decode_eq_ok_iff.mpr ⟨rfl, rfl⟩,
    fun n hn => ⟨decode_family5_noRow x y hn, decode_family9_noRow x y hn⟩, fun h => heq (beq_iff_eq.mpr h),
    fun h => hne (beq_eq_false_iff_ne.mpr h)⟩

end Sys2Proof.Machine

/-!
SUPPORT. ALU, register loads and random (43_alu.md R180 to R194). An instruction without a flag writes VX alone; a
flag-writing one writes the result to VX, then the flag to VF, so that VF is the flag also when X = F.
-/

namespace Sys2Proof.Machine

open Sys2Proof.Claims

/-! ### The write orders of R180 -/

theorem State.advance_setReg_frame (s : State) (x : Nibble) (b : Byte) :
    Frame s (s.advance.setReg x b) (onlyReg x) [] :=
  ((Keeps.refl s (onlyReg x) []).advance.setReg rfl b).toFrame

theorem State.aluWrite_frame (s : State) (x : Nibble) (b : Byte) (f : Bool) :
    Frame s (s.aluWrite x b f) (regAndFlag x) [] :=
  ((Keeps.refl s (regAndFlag x) []).aluWrite (.inl rfl) (.inr rfl) b f).toFrame

theorem State.aluWrite_reg_flag (s : State) (x : Nibble) (b : Byte) (f : Bool) :
    (s.aluWrite x b f).reg 0xF = flagByte f := by
  rw [State.aluWrite_reg, if_pos rfl]

theorem State.aluWrite_reg_result (s : State) {x : Nibble} (hx : x ≠ 0xF) (b : Byte) (f : Bool) :
    (s.aluWrite x b f).reg x = b := by
  rw [State.aluWrite_reg, if_neg hx, if_pos rfl]

/-! ### The flags and results as numbers (R187 to R191) -/

theorem flagByte_carryOut_toNat (a b : Byte) :
    (flagByte (carryOut a b)).toNat = if 255 < a.toNat + b.toNat then 1 else 0 := by
  simp [flagByte_toNat, carryOut]

theorem flagByte_noBorrow_toNat (a b : Byte) :
    (flagByte (noBorrow a b)).toNat = if b.toNat ≤ a.toNat then 1 else 0 := by
  simp [flagByte_toNat, noBorrow]

/-- Bit k of a byte as a flag. -/
theorem flagByte_getLsbD_toNat (a : Byte) (k : Nat) : (flagByte (a.getLsbD k)).toNat = a.toNat / 2 ^ k % 2 := by
  rw [← Nat.toNat_testBit, flagByte_toNat]
  exact (Bool.cond_eq_ite _ _ _).symm

theorem flagByte_shrOut_toNat (a : Byte) : (flagByte (shrOut a)).toNat = a.toNat % 2 := by
  rw [shrOut, flagByte_getLsbD_toNat, pow_zero, Nat.div_one]

theorem flagByte_shlOut_toNat (a : Byte) : (flagByte (shlOut a)).toNat = a.toNat / 128 := by
  have hlt : a.toNat < 256 := a.isLt
  rw [shlOut, flagByte_getLsbD_toNat]
  omega

/-- R193: the carry and the sum mod 256 together are the whole sum. -/
theorem carryOut_add_toNat (a b : Byte) :
    256 * (flagByte (carryOut a b)).toNat + (a + b).toNat = a.toNat + b.toNat := by
  have hsum : (a + b).toNat = (a.toNat + b.toNat) % 256 := BitVec.toNat_add a b
  have ha : a.toNat < 256 := a.isLt
  have hb : b.toNat < 256 := b.isLt
  rw [flagByte_carryOut_toNat]
  split <;> omega

/-- The difference mod 256, with the modulus added before the subtraction. -/
theorem sub_toNat_mod (a b : Byte) : (a - b).toNat = (a.toNat + 256 - b.toNat) % 256 := by
  bv_omega

theorem ushiftRight_one_toNat (a : Byte) : (a >>> 1).toNat = a.toNat / 2 :=
  BitVec.toNat_ushiftRight a 1

theorem shiftLeft_one_toNat (a : Byte) : (a <<< 1).toNat = 2 * a.toNat % 256 := by
  rw [BitVec.toNat_shiftLeft, Nat.shiftLeft_eq, Nat.mul_comm]

/-- The source of a shift is the byte that QUIRK_SHIFT_SOURCE names. -/
theorem State.shiftSource_eq {s : State} {x y : Nibble} {src : Byte} (hvx : s.cfg.shiftSource = .vx → src = s.reg x)
    (hvy : s.cfg.shiftSource = .vy → src = s.reg y) : s.shiftSource x y = src := by
  unfold State.shiftSource
  split
  case h_1 h => exact (hvx h).symm
  case h_2 h => exact (hvy h).symm

/-! ### The flag-writing instructions -/

/-- Settles O25: the sum and the carry are those of the naturals. -/
theorem addWritesTheSumThenTheCarry : Obligations.AddWritesTheSumThenTheCarry := by
  intro s x y
  refine ⟨decode_eq_ok_iff.mpr ⟨rfl, rfl⟩, _, rfl, rfl, fun hx => ?_, ?_, s.aluWrite_frame x _ _⟩
  · rw [State.aluWrite_reg_flag, s.aluWrite_reg_result hx]
    exact ⟨BitVec.toNat_add _ _, carryOut_add_toNat _ _⟩
  · rw [State.aluWrite_reg_flag, flagByte_carryOut_toNat]

/-- What both subtractions write: the difference `a - b`, then its no-borrow flag. -/
theorem State.aluWrite_sub (s : State) (x : Nibble) (a b : Byte) :
    (x ≠ 0xF → ((s.aluWrite x (a - b) (noBorrow a b)).reg x).toNat = (a.toNat + 256 - b.toNat) % 256) ∧
      ((s.aluWrite x (a - b) (noBorrow a b)).reg 0xF).toNat = (if b.toNat ≤ a.toNat then 1 else 0) ∧
      Frame s (s.aluWrite x (a - b) (noBorrow a b)) (regAndFlag x) [] := by
  refine ⟨fun hx => ?_, ?_, s.aluWrite_frame x _ _⟩
  · rw [s.aluWrite_reg_result hx, sub_toNat_mod]
  · rw [State.aluWrite_reg_flag, flagByte_noBorrow_toNat]

/-- Settles O26: SUBN is SUB with its operands exchanged. -/
theorem subtractWritesTheDifferenceThenNoBorrow : Obligations.SubtractWritesTheDifferenceThenNoBorrow := fun s x y =>
  ⟨⟨decode_eq_ok_iff.mpr ⟨rfl, rfl⟩, decode_eq_ok_iff.mpr ⟨rfl, rfl⟩⟩,
    ⟨_, rfl, rfl, s.aluWrite_sub x (s.reg x) (s.reg y)⟩, ⟨_, rfl, rfl, s.aluWrite_sub x (s.reg y) (s.reg x)⟩⟩

/-- Settles O27: under either strap the shifts read the source, whose bit 0 or bit 7 leaves. -/
theorem shiftWritesTheResultThenTheBitShiftedOut : Obligations.ShiftWritesTheResultThenTheBitShiftedOut := by
  intro s x y src hvx hvy
  obtain rfl := State.shiftSource_eq hvx hvy
  refine ⟨⟨decode_eq_ok_iff.mpr ⟨rfl, rfl⟩, decode_eq_ok_iff.mpr ⟨rfl, rfl⟩⟩,
    ⟨_, rfl, rfl, fun hx => ?_, ?_, s.aluWrite_frame x _ _⟩, ⟨_, rfl, rfl, fun hx => ?_, ?_, s.aluWrite_frame x _ _⟩⟩
  · rw [s.aluWrite_reg_result hx, ushiftRight_one_toNat]
  · rw [State.aluWrite_reg_flag, flagByte_shrOut_toNat]
  · rw [s.aluWrite_reg_result hx, shiftLeft_one_toNat]
  · rw [State.aluWrite_reg_flag, flagByte_shlOut_toNat]

/-! ### The instructions without a flag -/

/-- Settles O23: VX is the only register written. -/
theorem immediateFormsWriteNoFlag : Obligations.ImmediateFormsWriteNoFlag := by
  intro s x kk
  refine ⟨decode_eq_ok_iff.mpr ⟨rfl, rfl⟩, decode_eq_ok_iff.mpr ⟨rfl, rfl⟩,
    ⟨_, rfl, rfl, State.setReg_reg_same _ x kk, s.advance_setReg_frame x _⟩,
    ⟨_, rfl, rfl, ?_, s.advance_setReg_frame x _⟩⟩
  rw [State.setReg_reg_same]
  exact BitVec.toNat_add _ _

/-- Settles O24: VX is the only register written, and the logic operations act on each bit. -/
theorem copyAndLogicWriteNoFlag : Obligations.CopyAndLogicWriteNoFlag := by
  intro s x y
  refine ⟨⟨decode_eq_ok_iff.mpr ⟨rfl, rfl⟩, decode_eq_ok_iff.mpr ⟨rfl, rfl⟩, decode_eq_ok_iff.mpr ⟨rfl, rfl⟩,
      decode_eq_ok_iff.mpr ⟨rfl, rfl⟩⟩,
    ⟨_, rfl, rfl, State.setReg_reg_same _ x _, s.advance_setReg_frame x _⟩,
    ⟨_, rfl, rfl, s.advance_setReg_frame x _, fun k => ?_⟩, ⟨_, rfl, rfl, s.advance_setReg_frame x _, fun k => ?_⟩,
    ⟨_, rfl, rfl, s.advance_setReg_frame x _, fun k => ?_⟩⟩
  · rw [State.setReg_reg_same, BitVec.getLsbD_or]
  · rw [State.setReg_reg_same, BitVec.getLsbD_and]
  · rw [State.setReg_reg_same, BitVec.getLsbD_xor]

/-- The bits that are 0 in the mask are 0 under it. -/
theorem and_mask_and_not_mask (b m : Byte) : b &&& m &&& ~~~m = 0 := by
  rw [BitVec.and_assoc, BitVec.and_not_self]
  exact BitVec.and_zero

/-- Settles O28: the drawn byte under the mask, and one draw counted. -/
theorem randomIsMasked : Obligations.RandomIsMasked := by
  intro s x kk
  refine ⟨decode_eq_ok_iff.mpr ⟨rfl, rfl⟩, _, rfl, rfl, State.setReg_reg_same _ x _, ?_, rfl,
    (((Keeps.refl s (onlyReg x) [.draws]).advance.countDraw (.head _)).setReg rfl _).toFrame⟩
  rw [State.setReg_reg_same]
  exact and_mask_and_not_mask _ kk

end Sys2Proof.Machine

/-!
SUPPORT. The index register and the memory blocks (44_index_and_memory.md R210 to R217): FX33, FX55 and FX65 check their
whole block first, so they raise and write nothing, or transfer all of it.
-/

namespace Sys2Proof.Machine

open Sys2Proof.Claims

/-! ### Block writes, byte by byte (R63) -/

theorem State.readByte_writeBytes_inside (s : State) {bs : List Byte} {k : Nat} (hk : k < bs.length) (base : Nat) :
    (s.setMem (s.mem.writeBytes base bs)).readByte (base + k) = bs[k] := by
  rw [State.setMem_writeBytes_readByte, dif_pos (by omega)]
  simp only [Nat.add_sub_cancel_left]

theorem State.readByte_writeBytes_outside (s : State) {bs : List Byte} {base a : Nat}
    (ha : a < base ∨ base + bs.length ≤ a) : (s.setMem (s.mem.writeBytes base bs)).readByte a = s.readByte a := by
  rw [State.setMem_writeBytes_readByte, dif_neg (by omega)]

/-! ### FX33: the digits of VX -/

/-- The digits as numbers: each is below 10, so that a byte holds it. -/
theorem bcdDigits_getElem_toNat (b : Byte) {k : Nat} (hk : k < (bcdDigits b).length) :
    (bcdDigits b)[k].toNat = [b.toNat / 100, b.toNat / 10 % 10, b.toNat % 10][k] := by
  have hb : b.toNat < 256 := b.isLt
  have hmap : (bcdDigits b).map BitVec.toNat = [b.toNat / 100, b.toNat / 10 % 10, b.toNat % 10] := by
    simp only [bcdDigits, List.map_cons, List.map_nil, BitVec.toNat_ofNat, List.cons.injEq, and_true]
    omega
  simp only [← hmap, List.getElem_map]

theorem execLdBVx_next {s : State} (x : Nibble) (h : s.i.toNat < 0xFFE) :
    execLdBVx x s = .next (s.advance.setMem (s.mem.writeBytes s.i.toNat (bcdDigits (s.reg x)))) :=
  s.checked_next _ _ _ _ (.inr (by omega))

theorem execLdBVx_fault {s : State} (x : Nibble) (h : 0xFFE ≤ s.i.toNat) :
    execLdBVx x s = .fault (.addressOutOfRange s.pc (encode (.ldBVx x)) (max s.i.toNat 4096) .ram) :=
  s.checked_fault _ _ _ _ (by decide) (by omega)

/-- Settles O32: the block write of the three digits, or the error of the range check. -/
theorem storeBcdWritesThreeDigits : Obligations.StoreBcdWritesThreeDigits := by
  refine fun s x => ⟨decode_eq_ok_iff.mpr ⟨rfl, rfl⟩, execLdBVx_fault x, fun h => ⟨_, execLdBVx_next x h, rfl, ?_⟩⟩
  set t := s.advance.setMem (s.mem.writeBytes s.i.toNat (bcdDigits (s.reg x)))
  have hread (k : Nat) (hk : k < 3) : t.readByte (s.i.toNat + k) = (bcdDigits (s.reg x))[k] :=
    s.advance.readByte_writeBytes_inside hk s.i.toNat
  have hdigit (k : Nat) (hk : k < 3) : (t.readByte (s.i.toNat + k)).toNat =
      [(s.reg x).toNat / 100, (s.reg x).toNat / 10 % 10, (s.reg x).toNat % 10][k] :=
    (congrArg BitVec.toNat (hread k hk)).trans (bcdDigits_getElem_toNat (s.reg x) hk)
  exact ⟨hdigit 0 (by decide), hdigit 1 (by decide), hdigit 2 (by decide),
    fun a ha => s.advance.readByte_writeBytes_outside (by rw [bcdDigits_length]; omega),
    ((Keeps.refl s noReg [.ram]).advance.setMem (.head _) _).toFrame⟩

/-! ### FX55 and FX65: the block of registers -/

/-- The quirk adds the number of registers to I (R214, R215). -/
theorem State.indexAfterBlock_toNat {s : State} (x : Nibble) (h : s.cfg.loadStoreIncI = true) :
    (s.indexAfterBlock x).toNat = (s.i.toNat + x.toNat + 1) % 65536 := by
  rw [State.indexAfterBlock, if_pos h, blockLen]
  bv_omega

theorem State.indexAfterBlock_of_noQuirk {s : State} (x : Nibble) (h : s.cfg.loadStoreIncI = false) :
    s.indexAfterBlock x = s.i := by
  rw [State.indexAfterBlock, h]
  rfl

/-- FX55 and FX65 go on where V0 to VX have all their addresses in RAM. -/
theorem State.checked_block_next {s : State} {x : Nibble} (h : s.i.toNat + x.toNat ≤ 4095) (w : Word) (next : State) :
    s.checked w s.i.toNat (blockLen x) next = .next next :=
  s.checked_next w _ _ next (.inr (Nat.succ_le_succ h))

theorem State.checked_block_fault {s : State} {x : Nibble} (h : 4095 < s.i.toNat + x.toNat) (w : Word)
    (next : State) :
    s.checked w s.i.toNat (blockLen x) next = .fault (.addressOutOfRange s.pc w (max s.i.toNat 4096) .ram) :=
  s.checked_fault w _ _ next (Nat.succ_ne_zero _) (Nat.succ_lt_succ h)

/-- Settles O33: the block write of V0 to VX, or the error of the range check. -/
theorem registerDumpStoresTheBlock : Obligations.RegisterDumpStoresTheBlock := by
  refine fun s x => ⟨decode_eq_ok_iff.mpr ⟨rfl, rfl⟩, fun h => State.checked_block_fault h _ _,
    fun h => ⟨_, State.checked_block_next h _ _, rfl, fun r hr => ?_, fun a ha => ?_,
    State.indexAfterBlock_of_noQuirk x, State.indexAfterBlock_toNat x,
    (((Keeps.refl s noReg [.ram, .index]).advance.setMem (by simp) _).setI (by simp) _).toFrame⟩⟩
  · have hk : r.toNat < (s.regBlock x).length := by rw [s.regBlock_length]; omega
    refine (s.advance.readByte_writeBytes_inside hk s.i.toNat).trans ?_
    rw [s.regBlock_getElem, BitVec.ofNat_toNat, BitVec.setWidth_eq]
  · exact s.advance.readByte_writeBytes_outside (by rw [s.regBlock_length]; omega)

/-- Settles O34: the registers of the block, or the error of the range check. -/
theorem registerLoadFillsTheBlock : Obligations.RegisterLoadFillsTheBlock := by
  intro s x
  have hreg (r : Nibble) : (s.advance.setRegs (s.loadBlock x)).reg r =
      if r.toNat ≤ x.toNat then s.readByte (s.i.toNat + r.toNat) else s.reg r :=
    s.setRegs_loadBlock_reg s.advance x r
  exact ⟨decode_eq_ok_iff.mpr ⟨rfl, rfl⟩, fun h => State.checked_block_fault h _ _,
    fun h => ⟨_, State.checked_block_next h _ _, rfl, fun r hr => (hreg r).trans (if_pos hr),
    State.indexAfterBlock_of_noQuirk x, State.indexAfterBlock_toNat x,
    (((Keeps.refl s _ [.index]).advance.setRegs fun r hr => (hreg r).trans (if_neg hr)).setI (.head _) _).toFrame⟩⟩

/-! ### The instructions that write I alone (R210 to R212) -/

theorem State.advance_setI_frame (s : State) (a : Word) : Frame s (s.advance.setI a) noReg [.index] :=
  ((Keeps.refl s noReg [.index]).advance.setI (.head _) a).toFrame

/-- Settles O29: 16 bits hold NNN. -/
theorem setIndexLoadsTheImmediate : Obligations.SetIndexLoadsTheImmediate := by
  intro s nnn
  have hi : (zext16 nnn).toNat = nnn.toNat := BitVec.toNat_setWidth_of_le (by decide)
  have hle : (zext16 nnn).toNat ≤ 0xFFF := by omega
  exact ⟨decode_eq_ok_iff.mpr ⟨rfl, rfl⟩, _, rfl, rfl, hi, hle, s.advance_setI_frame _⟩

/-- Settles O30: an index above 0xFFF is out of range of RAM, and itself the address that FX65 reports. -/
theorem addToIndexWrapsAt16Bits : Obligations.AddToIndexWrapsAt16Bits := by
  refine fun s x => ⟨decode_eq_ok_iff.mpr ⟨rfl, rfl⟩, _, rfl, rfl, ?_, s.advance_setI_frame _, fun z hz => ?_⟩
  · rw [State.setI_i, BitVec.toNat_add, BitVec.toNat_setWidth_of_le (by decide)]
  · have hfault := State.checked_block_fault (x := z) (Nat.lt_add_right z.toNat hz) (encode (.ldVxMem z))
    rw [Nat.max_eq_left hz] at hfault
    exact hfault _

/-- The address of FX29 as a number, where 16 bits hold it; FONT_BASE is 0. -/
theorem fontAddress_toNat {d : Nat} (h : d < 256) : (fontAddress d).toNat = 5 * d := by
  rw [fontAddress, Config.fontBase, BitVec.toNat_ofNat]
  omega

theorem State.fontDigit_lt (s : State) (x : Nibble) : s.fontDigit x < 256 := by
  have hb : (s.reg x).toNat < 256 := (s.reg x).isLt
  unfold State.fontDigit
  split <;> omega

/-- Settles O31: five times the digit that the strap names, which is a byte at most. -/
theorem fontAddressIsFiveTimesTheDigit : Obligations.FontAddressIsFiveTimesTheDigit := by
  intro s x
  have hlt := s.fontDigit_lt x
  have hi : (s.advance.setI (fontAddress (s.fontDigit x))).i.toNat = 5 * s.fontDigit x := fontAddress_toNat hlt
  refine ⟨decode_eq_ok_iff.mpr ⟨rfl, rfl⟩, _, rfl, rfl, fun hm => ?_, fun hm => ?_, ?_, s.advance_setI_frame _⟩
  · rw [hi, State.fontDigit, hm]
  · rw [hi, State.fontDigit, hm]
  · omega

end Sys2Proof.Machine

/-!
SUPPORT. The sprite draw (45_sprite.md R230 to R237): what DXYN does to every cell and to VF, by the set pixels of the
sprite that land on the cells of the old framebuffer.
-/

namespace Sys2Proof.Machine

open Sys2Proof.Claims

section Draw

variable (s : State) (x y n : Nibble)

/-! ### The pixels of a sprite (R230 to R232) -/

theorem State.spriteRows_length : (s.spriteRows n).length = n.toNat := by
  rw [State.spriteRows, List.length_map, List.length_range]

theorem State.spriteRows_length_le : (s.spriteRows n).length ≤ 32 := by
  rw [s.spriteRows_length]
  omega

theorem State.spriteRows_getElem (r : Nat) (h : r < (s.spriteRows n).length) :
    (s.spriteRows n)[r] = s.readByte (s.i.toNat + r) := by
  simp only [State.spriteRows, List.getElem_map, List.getElem_range]

/-- `spriteHits` in the compositor's terms: its wrapped coordinates and its bit order. -/
theorem spriteHits_iff_wrap (cx : Fin 64) (cy : Fin 32) :
    spriteHits s x y n cx cy ↔ ∃ r, r < n.toNat ∧ wrapY (s.reg y) r = cy ∧
      ∃ c, c < 8 ∧ spriteBit (s.readByte (s.i.toNat + r)) c = true ∧ wrapX (s.reg x) c = cx := by
  simp only [wrapX, wrapY, Fin.ext_iff, Fin.val_ofNat]
  constructor
  · rintro ⟨r, c, hr, hc, hx, hy, hbit⟩
    exact ⟨r, hr, hy, c, hc, hbit, hx⟩
  · rintro ⟨r, hr, hy, c, hc, hbit, hx⟩
    exact ⟨r, c, hr, hc, hx, hy, hbit⟩

/-- Only registers X and Y, `I` and RAM determine where the set pixels land. -/
theorem spriteHits_congr {u : State} (hx : u.reg x = s.reg x) (hy : u.reg y = s.reg y) (hi : u.i = s.i)
    (hram : ∀ a, u.readByte a = s.readByte a) (cx : Fin 64) (cy : Fin 32) :
    spriteHits u x y n cx cy ↔ spriteHits s x y n cx cy := by
  simp only [spriteHits, hx, hy, hi, hram]

/-- A set bit in the rows of the sprite lands on some cell. -/
theorem exists_spriteHits_of_bit {r c : Nat} (hr : r < n.toNat) (hc : c < 8)
    (hbit : (s.readByte (s.i.toNat + r)).getLsbD c = true) : ∃ cx cy, spriteHits s x y n cx cy := by
  refine ⟨_, _, (spriteHits_iff_wrap s x y n _ _).mpr ⟨r, hr, rfl, 7 - c, by omega, ?_, rfl⟩⟩
  rwa [spriteBit, Nat.sub_sub_self (Nat.le_of_lt_succ hc)]

/-! ### What the compositor does (R230, R233, R234) -/

theorem State.composite_noRows : s.composite x y 0 = ⟨s.fb, false⟩ := rfl

/-- After the draw a cell is set when it was set before or a set pixel lands on it, but not both. -/
theorem State.composite_cell_iff (cx : Fin 64) (cy : Fin 32) :
    (s.composite x y n).fb.cell cx cy = true ↔ (s.fb.cell cx cy = true ↔ ¬ spriteHits s x y n cx cy) := by
  rw [State.composite, Canvas.drawRows_cell _ _ _ _ _ _ _ (s.spriteRows_length_le n), spriteHits_iff_wrap]
  simp only [s.spriteRows_getElem, s.spriteRows_length, List.mem_range, Nat.zero_add, exists_prop]

theorem State.composite_cell_of_hits {cx : Fin 64} {cy : Fin 32} (h : spriteHits s x y n cx cy) :
    (s.composite x y n).fb.cell cx cy = !s.fb.cell cx cy := by
  rw [Bool.eq_iff_iff, s.composite_cell_iff, Bool.not_eq_true', ← Bool.not_eq_true]
  simp only [h, not_true_eq_false, iff_false]

theorem State.composite_cell_of_not_hits {cx : Fin 64} {cy : Fin 32} (h : ¬ spriteHits s x y n cx cy) :
    (s.composite x y n).fb.cell cx cy = s.fb.cell cx cy := by
  rw [Bool.eq_iff_iff, s.composite_cell_iff]
  simp only [h, not_false_eq_true, iff_true]

/-- The collision is with the cells as they were before the draw. -/
theorem State.composite_collide_iff :
    (s.composite x y n).collide = true ↔ ∃ cx cy, spriteHits s x y n cx cy ∧ s.fb.cell cx cy = true := by
  rw [State.composite, Canvas.drawRows_collide _ _ _ _ _ (s.spriteRows_length_le n)]
  simp only [s.spriteRows_getElem, s.spriteRows_length, List.mem_range, Nat.zero_add, exists_prop, spriteHits_iff_wrap,
    Bool.false_eq_true, false_or]
  constructor
  · rintro ⟨r, hr, c, hc, hbit, hset⟩
    exact ⟨_, _, ⟨r, hr, rfl, c, hc, hbit, rfl⟩, hset⟩
  · rintro ⟨_, _, ⟨r, hr, rfl, c, hc, hbit, rfl⟩, hset⟩
    exact ⟨r, hr, c, hc, hbit, hset⟩

/-! ### What the instruction answers (R61, R230) -/

/-- The state after a draw that passes the range check. -/
def State.drawn : State := (s.advance.setFb (s.composite x y n).fb).setFlag (s.composite x y n).collide

theorem execDrw_next (h : n.toNat = 0 ∨ s.i.toNat + n.toNat ≤ 4096) :
    exec (.drw x y n) s = .next (s.drawn x y n) :=
  s.checked_next _ _ _ _ h

theorem execDrw_fault (h0 : n.toNat ≠ 0) (h : 4096 < s.i.toNat + n.toNat) :
    exec (.drw x y n) s = .fault (.addressOutOfRange s.pc (encode (.drw x y n)) (max s.i.toNat 4096) .ram) :=
  s.checked_fault _ _ _ _ h0 h

@[simp] theorem State.drawn_pc : (s.drawn x y n).pc = s.pc + 2 := rfl
@[simp] theorem State.drawn_fb : (s.drawn x y n).fb = (s.composite x y n).fb := rfl

theorem State.drawn_frame : Frame s (s.drawn x y n) (onlyReg 0xF) [.fb] :=
  (((Keeps.refl s (onlyReg 0xF) [.fb]).advance.setFb (.head _) _).setReg rfl _).toFrame

theorem State.drawn_flag : (s.drawn x y n).reg 0xF = flagByte (s.composite x y n).collide :=
  State.setReg_reg_same _ vf _

theorem State.drawn_flag_eq_one_iff :
    (s.drawn x y n).reg 0xF = 1 ↔ ∃ cx cy, spriteHits s x y n cx cy ∧ s.fb.cell cx cy = true := by
  rw [s.drawn_flag, ← s.composite_collide_iff]
  cases (s.composite x y n).collide <;> decide

theorem State.drawn_flag_eq_zero_iff :
    (s.drawn x y n).reg 0xF = 0 ↔ ¬ ∃ cx cy, spriteHits s x y n cx cy ∧ s.fb.cell cx cy = true := by
  rw [s.drawn_flag, ← s.composite_collide_iff]
  cases (s.composite x y n).collide <;> decide

end Draw

/-! ### The obligations -/

/-- Settles O35: the range check, then the compositor's cells and collision. -/
theorem drawXorsTheSpriteAndReportsCollision : Obligations.DrawXorsTheSpriteAndReportsCollision := by
  intro s x y n
  have hn : n = 0 ↔ n.toNat = 0 := BitVec.toNat_inj.symm
  refine ⟨decode_eq_ok_iff.mpr ⟨rfl, rfl⟩, fun hrows hend => ?_, fun hin => ?_⟩
  · exact execDrw_fault s x y n (mt hn.mpr hrows) (by omega)
  · rw [hn] at hin
    exact ⟨_, execDrw_next s x y n (by omega), s.drawn_pc x y n, fun _ _ => s.composite_cell_of_hits x y n,
      fun _ _ => s.composite_cell_of_not_hits x y n, (s.drawn_flag_eq_one_iff x y n).mpr,
      (s.drawn_flag_eq_zero_iff x y n).mpr, s.drawn_frame x y n⟩

/-- Settles O36: no row is read, so no address is checked and the canvas is the old one. -/
theorem drawOfNoRowsClearsTheFlag : Obligations.DrawOfNoRowsClearsTheFlag := by
  intro s x y
  have hdrawn : s.drawn x y 0 = s.advance.setReg 0xF 0 := by
    rw [State.drawn, State.composite_noRows]
    rfl
  refine ⟨_, execDrw_next s x y 0 (.inl rfl), s.drawn_pc x y 0, ?_, ?_⟩
  · rw [hdrawn, State.setReg_reg_same]
  · rw [hdrawn]
    exact s.advance_setReg_frame 0xF 0

/-- Settles O37: both draws hit the same cells, so each is inverted twice or never, and the second draw collides with
the cells that the first one set. -/
theorem drawTwiceRestoresTheFramebuffer : Obligations.DrawTwiceRestoresTheFramebuffer := by
  intro s t u x y n hfirst hfb hx hy hi hram
  obtain ⟨hrange, rfl⟩ := exec_next_form hfirst
  have hhits := spriteHits_congr s x y n hx hy hi hram
  have hcell : ∀ cx cy, u.fb.cell cx cy = (s.composite x y n).fb.cell cx cy := fun cx cy => by rw [hfb]; rfl
  have hflag : (u.drawn x y n).reg 0xF = 1 ↔ ∃ cx cy, spriteHits s x y n cx cy ∧ s.fb.cell cx cy = false := by
    rw [u.drawn_flag_eq_one_iff]
    refine exists₂_congr fun cx cy => (and_congr_left' (hhits cx cy)).trans (and_congr_right fun h => ?_)
    rw [hcell, s.composite_cell_of_hits x y n h, Bool.not_eq_true']
  refine ⟨_, execDrw_next u x y n (hi ▸ hrange), fun cx cy => ?_, hflag, fun hclear ⟨r, c, hr, hc, hbit⟩ => ?_⟩
  · rw [State.drawn_fb]
    by_cases h : spriteHits s x y n cx cy
    · rw [u.composite_cell_of_hits x y n ((hhits cx cy).mpr h), hcell, s.composite_cell_of_hits x y n h, Bool.not_not]
    · rw [u.composite_cell_of_not_hits x y n (mt (hhits cx cy).mp h), hcell, s.composite_cell_of_not_hits x y n h]
  · obtain ⟨cx, cy, h⟩ := exists_spriteHits_of_bit s x y n hr hc hbit
    exact hflag.mpr ⟨cx, cy, h, hclear cx cy⟩

end Sys2Proof.Machine

/-!
SUPPORT. The timer transfers and the two answers of FX0A (46_timers_and_keys.md R250 to R254).
-/

namespace Sys2Proof.Machine

open Sys2Proof.Claims

/-! ### The timers (R250 to R252) -/

/-- Settles O38: each transfer is one write beside pc, and sound_active is ST > 0. -/
theorem timerTransfersCopyTheByte : Obligations.TimerTransfersCopyTheByte := fun s x =>
  ⟨⟨decode_eq_ok_iff.mpr ⟨rfl, rfl⟩, decode_eq_ok_iff.mpr ⟨rfl, rfl⟩, decode_eq_ok_iff.mpr ⟨rfl, rfl⟩⟩,
    ⟨_, rfl, rfl, State.setReg_reg_same _ x _, s.advance_setReg_frame x _⟩,
    ⟨_, rfl, rfl, rfl, ((Keeps.refl s noReg [.dt]).advance.setDt (.head _) _).toFrame⟩,
    ⟨_, rfl, rfl, rfl, soundActive_iff _, ((Keeps.refl s noReg [.st]).advance.setSt (.head _) _).toFrame⟩⟩

/-! ### The keys (R253, R254) -/

theorem State.keys_eq_zero {s : State} (h : ∀ k < 16, s.keys.getLsbD k = false) : s.keys = 0 :=
  BitVec.eq_of_getLsbD_eq fun k hk => (h k hk).trans BitVec.getLsbD_zero.symm

theorem execLdVxK_lowestKey {s : State} {k : Fin 16} (x : Nibble) (h : s.lowestKey = some k) :
    execLdVxK x s = .next (s.advance.setReg x (BitVec.ofNat 8 k.val)) := by
  rw [execLdVxK, h]

/-- Settles O39: with no key down the key word is 0; else the lowest key down is the one found, and a byte holds its
number. -/
theorem waitForKeyTakesTheLowestPressedKey : Obligations.WaitForKeyTakesTheLowestPressedKey := by
  refine fun s x => ⟨decode_wordXKK_ldVxK x, fun hup => execLdVxK_noKey x (State.keys_eq_zero hup),
    fun k hk hdown hbelow => ?_⟩
  have hlowest : s.lowestKey = some ⟨k, hk⟩ := (s.lowestKey_some ⟨k, hk⟩).mpr ⟨hdown, fun j hj => hbelow j hj⟩
  refine ⟨_, execLdVxK_lowestKey x hlowest, rfl, ?_, s.advance_setReg_frame x _⟩
  rw [State.setReg_reg_same, BitVec.toNat_ofNat]
  exact Nat.mod_eq_of_lt (by omega)

end Sys2Proof.Machine

/-!
SUPPORT. The error record (60_exceptions.md R271, R273 to R276): every error of a step is raised for a cause that the state
or the access gives, with the fetched word.
-/

namespace Sys2Proof.Machine

open Sys2Proof.Claims

/-- What holds where a cause is raised: SP at its bound (R273, R274), or an access out of its space's range, which a
16-bit base or an 8-bit key index names (R275). -/
def State.CauseHolds (s : State) : Cause → Prop
  | .decode => True
  | .stackOverflow => s.sp.val = 16
  | .stackUnderflow => s.sp.val = 0
  | .address a .ram => 4095 < a ∧ a < 2 ^ 16
  | .address a .keys => 15 < a ∧ a ≤ 255

/-- The address of a RAM error, from a 16-bit base. -/
theorem State.causeHolds_ram (s : State) (base : Word) : s.CauseHolds (.address (max base.toNat 4096) .ram) := by
  unfold State.CauseHolds
  omega

/-- The 17 bits of the record's `addr` hold the address in either space (R276). -/
theorem State.CauseHolds.addr_toNat {s : State} {a : Nat} {space : Space} (h : s.CauseHolds (.address a space)) :
    (BitVec.ofNat 17 a).toNat = a := by
  have hlt : a < 2 ^ 17 := by
    cases space with
    | ram => exact Nat.lt_trans h.2 (by decide)
    | keys => exact Nat.lt_of_le_of_lt h.2 (by decide)
  rw [BitVec.toNat_ofNat, Nat.mod_eq_of_lt hlt]

/-- The word of the error record: the fetched word, or 0 where the fetch failed (R276). -/
def State.recordWord (s : State) : Word := if s.pc.toNat ≤ 0xFFE then wordAtPc s else 0

theorem exec_fault_raised {i : Instr} {s : State} {f : Fault} (h : exec i s = .fault f) :
    ∃ c, s.CauseHolds c ∧ s.raise (encode i) c = .fault f := by
  obtain ⟨_, _, _, rfl⟩ | ⟨_, h0, rfl⟩ | ⟨_, _, h16, rfl⟩ | ⟨_, k, hk, rfl⟩ | ⟨_, rfl⟩ := exec_fault_form h
  · exact ⟨.decode, trivial, rfl⟩
  · exact ⟨.stackUnderflow, h0, rfl⟩
  · exact ⟨.stackOverflow, h16, rfl⟩
  · exact ⟨.address k.toNat .keys, ⟨hk, Nat.le_of_lt_succ k.isLt⟩, rfl⟩
  · exact ⟨.address _ .ram, s.causeHolds_ram s.i, rfl⟩

/-- The fetch, the decoder and the instruction raise alike, the last with the word it was decoded from. -/
theorem step_fault_raised {s : State} {f : Fault} (h : step s = .fault f) :
    ∃ c, s.CauseHolds c ∧ s.raise s.recordWord c = .fault f := by
  obtain ⟨hgt, rfl⟩ | ⟨hle, w, hw, hcases⟩ := step_fault_cases h
  · have hword : s.recordWord = 0 := if_neg (by omega)
    exact ⟨.address _ .ram, s.causeHolds_ram s.pc, by rw [hword]; rfl⟩
  · have hword : s.recordWord = w := (if_pos hle).trans hw.symm
    rw [hword]
    obtain ⟨-, rfl⟩ | ⟨i, hi, hexec⟩ := hcases
    · exact ⟨.decode, trivial, rfl⟩
    · rw [← (encode_of_decode hi).1]
      exact exec_fault_raised hexec

/-- Settles O12, by the cause of the error. -/
theorem errorRecordOfEveryFault : Obligations.ErrorRecordOfEveryFault := by
  intro s f hstep
  obtain ⟨c, hc, hraise⟩ := step_fault_raised hstep
  cases c with
  | decode =>
    cases hraise
    exact ⟨rfl, rfl, fun _ _ _ => ⟨rfl, rfl, rfl, rfl⟩, nofun, nofun, nofun⟩
  | stackOverflow =>
    cases hraise
    have hsp : s.sp = 16 := Fin.ext hc
    exact ⟨rfl, rfl, nofun, fun _ _ _ _ => ⟨rfl, rfl, rfl, by rw [hsp]; rfl, hc⟩, nofun, nofun⟩
  | stackUnderflow =>
    cases hraise
    have hsp : s.sp = 0 := Fin.ext hc
    exact ⟨rfl, rfl, nofun, nofun, fun _ _ _ _ => ⟨rfl, rfl, rfl, by rw [hsp]; rfl, hc⟩, nofun⟩
  | address a space =>
    cases hraise
    refine ⟨rfl, rfl, nofun, nofun, nofun, fun _ _ _ _ hf => ?_⟩
    cases hf
    refine ⟨rfl, rfl, ⟨_, rfl, hc.addr_toNat⟩, ?_⟩
    cases space with
    | ram => exact .inl ⟨rfl, rfl, hc.1⟩
    | keys => exact .inr ⟨rfl, rfl, hc⟩

end Sys2Proof.Machine

/-!
SUPPORT. The reset by the host (70_reset_and_hazards.md R300, R301): RAM and straps come from the straps given, every other
architectural field from `State.reset`, and nothing from the state before.
-/

namespace Sys2Proof.Machine

open Sys2Proof.Claims

theorem hostReset_readByte (straps : Config) (s : State) (a : Nat) :
    (hostReset straps s).readByte a = if a < 80 then Config.fontByte straps.fontTable a else 0 :=
  Memory.read_resetMemory straps.fontTable a

/-- Settles O42: the fields of `State.reset` by O41, and RAM by the given font table. -/
theorem hostResetReinitialisesEverything : Obligations.HostResetReinitialisesEverything := by
  intro straps s
  obtain ⟨hreg, hi, hpc, hsp, hstack, hdt, hst, -, -, -, -, hfb, hsound, -⟩ := resetValues
  refine ⟨hreg, hi, hpc, hsp, hstack, hdt, hst, rfl, fun g r hg hr => ?_, fun a ha => ?_, hfb, hsound, rfl⟩
  · rw [hostReset_readByte, if_pos (by omega), fontByte_glyph_row _ g r hg hr]
  · rw [hostReset_readByte, if_neg (by omega)]

end Sys2Proof.Machine
